-- ==== Sys2Proof/Word.lean ====
section
/-! DEFINITION. The two word types of the block: a byte (u8) and a 16-bit word or address (u16),
spec/00_scope.md R11. -/
namespace Sys2Proof

/-- An 8-bit unsigned quantity (R11). -/
abbrev Byte := BitVec 8

/-- A 16-bit unsigned quantity: an address, PC, SP or an operand word (R11, R32). -/
abbrev Addr := BitVec 16

end Sys2Proof
end

