-- ==== Sys2Proof/Syntax.lean ====
section
/-! DEFINITION. The instructions of spec/30_encoding.md R56 and R58, one constructor for each opcode
row; the 224 Unhandled rows, which R122 gives one meaning, are the one constructor `unhandled`
with the opcode byte as its operand (assumption log 12). -/
namespace Sys2Proof

/-- The operation kinds of R55, less Unhandled, which is the absence of a pair. -/
inductive OpKind
  | loadA
  | loadX
  | loadY
  | storeA
  | storeX
  | storeY
  | jumpToSubroutine
  deriving DecidableEq, Repr

/-- The nine addressing modes of R55. -/
inductive Mode
  | immediate
  | zeroPage
  | zeroPageX
  | zeroPageY
  | absolute
  | absoluteX
  | absoluteY
  | indirectX
  | indirectY
  deriving DecidableEq, Repr

/-- An addressing mode with its operand bytes, for the eight modes the resolver handles (R62). -/
inductive Operand
  | zeroPage  (b : Byte)
  | zeroPageX (b : Byte)
  | zeroPageY (b : Byte)
  | absolute  (w : Addr)
  | absoluteX (w : Addr)
  | absoluteY (w : Addr)
  | indirectX (b : Byte)
  | indirectY (b : Byte)
  deriving DecidableEq, Repr

/-- Why the resolver is called (R62). -/
inductive Purpose
  | load
  | store
  deriving DecidableEq, Repr

/-- The three registers loads and stores name (R84, R104). -/
inductive Reg
  | a
  | x
  | y
  deriving DecidableEq, Repr

/-- One constructor per row of the opcode table (R56, R58). An operand word is the assembled word
`hi:lo` of R54. -/
inductive Instr
  | ldaImm  (v : Byte)
  | ldaZp   (b : Byte)
  | ldaZpX  (b : Byte)
  | ldaAbs  (w : Addr)
  | ldaAbsX (w : Addr)
  | ldaAbsY (w : Addr)
  | ldaIndX (b : Byte)
  | ldaIndY (b : Byte)
  | ldxImm  (v : Byte)
  | ldxZp   (b : Byte)
  | ldxZpY  (b : Byte)
  | ldxAbs  (w : Addr)
  | ldxAbsY (w : Addr)
  | ldyImm  (v : Byte)
  | ldyZp   (b : Byte)
  | ldyZpX  (b : Byte)
  | ldyAbs  (w : Addr)
  | ldyAbsX (w : Addr)
  | staZp   (b : Byte)
  | staZpX  (b : Byte)
  | staAbs  (w : Addr)
  | staAbsX (w : Addr)
  | staAbsY (w : Addr)
  | staIndX (b : Byte)
  | staIndY (b : Byte)
  | stxZp   (b : Byte)
  | stxZpY  (b : Byte)
  | stxAbs  (w : Addr)
  | styZp   (b : Byte)
  | styZpX  (b : Byte)
  | styAbs  (w : Addr)
  | jsr     (target : Addr)
  | unhandled (op : Byte)
  deriving DecidableEq, Repr

end Sys2Proof
end

