-- ==== Sys2Proof/WellFormed.lean ====
section
/-! DEFINITION. Which terms of `Instr` stand for an instruction: every operand fits by its type, and an
`unhandled` term carries one of the 224 bytes listed in spec/30_encoding.md R58. -/
namespace Sys2Proof

/-- The list of R58, ranges written (first, last) (90_conflicts.md C8). -/
def unhandledRanges : List (Nat × Nat) :=
  [(0x00, 0x1F), (0x21, 0x80), (0x82, 0x83), (0x87, 0x8B), (0x8F, 0x90), (0x92, 0x93),
   (0x97, 0x98), (0x9A, 0x9C), (0x9E, 0x9F), (0xA3, 0xA3), (0xA7, 0xA8), (0xAA, 0xAB),
   (0xAF, 0xB0), (0xB2, 0xB3), (0xB7, 0xB8), (0xBA, 0xBB), (0xBF, 0xFF)]

/-- The byte is Unhandled (R58). -/
def isUnhandledByte (op : Byte) : Bool :=
  unhandledRanges.any fun r => r.1 ≤ op.toNat && op.toNat ≤ r.2

/-- The term stands for an instruction. -/
def WellFormed : Instr → Bool
  | .unhandled op => isUnhandledByte op
  | .ldaImm _ | .ldaZp _ | .ldaZpX _ | .ldaAbs _ | .ldaAbsX _ | .ldaAbsY _ | .ldaIndX _
  | .ldaIndY _ | .ldxImm _ | .ldxZp _ | .ldxZpY _ | .ldxAbs _ | .ldxAbsY _ | .ldyImm _
  | .ldyZp _ | .ldyZpX _ | .ldyAbs _ | .ldyAbsX _ | .staZp _ | .staZpX _ | .staAbs _
  | .staAbsX _ | .staAbsY _ | .staIndX _ | .staIndY _ | .stxZp _ | .stxZpY _ | .stxAbs _
  | .styZp _ | .styZpX _ | .styAbs _ | .jsr _ => true

end Sys2Proof
end

