-- ==== Sys2Proof/Decode.lean ====
section
/-! DEFINITION. The byte-order helpers (spec/00_scope.md R11), the decoder (spec/30_encoding.md R52 to
R59), and after it the encoder, written from the same rows of R56. -/
namespace Sys2Proof

/-- `lo8(w) = w[7:0]` (R11). -/
def lo8 (w : Addr) : Byte := w.extractLsb' 0 8

/-- `hi8(w) = w[15:8]` (R11). -/
def hi8 (w : Addr) : Byte := w.extractLsb' 8 8

/-- The word `hi:lo` (R11, R54). -/
def wordOf (hi lo : Byte) : Addr := hi ++ lo

/-- `zext16(b)` (R11). -/
def zext16 (b : Byte) : Addr := b.setWidth 16

/-- The opcode map of R56 and R58 on the whole opcode byte (R57), applied to the two bytes after it:
`lo` is the byte at the next address, `hi` the one after. -/
def decodeOp (op lo hi : Byte) : Instr :=
  match op.toNat with
  | 0xA9 => .ldaImm lo
  | 0xA5 => .ldaZp lo
  | 0xB5 => .ldaZpX lo
  | 0xAD => .ldaAbs (wordOf hi lo)
  | 0xBD => .ldaAbsX (wordOf hi lo)
  | 0xB9 => .ldaAbsY (wordOf hi lo)
  | 0xA1 => .ldaIndX lo
  | 0xB1 => .ldaIndY lo
  | 0xA2 => .ldxImm lo
  | 0xA6 => .ldxZp lo
  | 0xB6 => .ldxZpY lo
  | 0xAE => .ldxAbs (wordOf hi lo)
  | 0xBE => .ldxAbsY (wordOf hi lo)
  | 0xA0 => .ldyImm lo
  | 0xA4 => .ldyZp lo
  | 0xB4 => .ldyZpX lo
  | 0xAC => .ldyAbs (wordOf hi lo)
  | 0xBC => .ldyAbsX (wordOf hi lo)
  | 0x85 => .staZp lo
  | 0x95 => .staZpX lo
  | 0x8D => .staAbs (wordOf hi lo)
  | 0x9D => .staAbsX (wordOf hi lo)
  | 0x99 => .staAbsY (wordOf hi lo)
  | 0x81 => .staIndX lo
  | 0x91 => .staIndY lo
  | 0x86 => .stxZp lo
  | 0x96 => .stxZpY lo
  | 0x8E => .stxAbs (wordOf hi lo)
  | 0x84 => .styZp lo
  | 0x94 => .styZpX lo
  | 0x8C => .styAbs (wordOf hi lo)
  | 0x20 => .jsr (wordOf hi lo)
  | _    => .unhandled op

/-- The (operation kind, addressing mode) pair of an instruction (R55, R85, R105); `none` is Unhandled. -/
def Instr.pair : Instr → Option (OpKind × Mode)
  | .ldaImm _  => some (.loadA, .immediate)
  | .ldaZp _   => some (.loadA, .zeroPage)
  | .ldaZpX _  => some (.loadA, .zeroPageX)
  | .ldaAbs _  => some (.loadA, .absolute)
  | .ldaAbsX _ => some (.loadA, .absoluteX)
  | .ldaAbsY _ => some (.loadA, .absoluteY)
  | .ldaIndX _ => some (.loadA, .indirectX)
  | .ldaIndY _ => some (.loadA, .indirectY)
  | .ldxImm _  => some (.loadX, .immediate)
  | .ldxZp _   => some (.loadX, .zeroPage)
  | .ldxZpY _  => some (.loadX, .zeroPageY)
  | .ldxAbs _  => some (.loadX, .absolute)
  | .ldxAbsY _ => some (.loadX, .absoluteY)
  | .ldyImm _  => some (.loadY, .immediate)
  | .ldyZp _   => some (.loadY, .zeroPage)
  | .ldyZpX _  => some (.loadY, .zeroPageX)
  | .ldyAbs _  => some (.loadY, .absolute)
  | .ldyAbsX _ => some (.loadY, .absoluteX)
  | .staZp _   => some (.storeA, .zeroPage)
  | .staZpX _  => some (.storeA, .zeroPageX)
  | .staAbs _  => some (.storeA, .absolute)
  | .staAbsX _ => some (.storeA, .absoluteX)
  | .staAbsY _ => some (.storeA, .absoluteY)
  | .staIndX _ => some (.storeA, .indirectX)
  | .staIndY _ => some (.storeA, .indirectY)
  | .stxZp _   => some (.storeX, .zeroPage)
  | .stxZpY _  => some (.storeX, .zeroPageY)
  | .stxAbs _  => some (.storeX, .absolute)
  | .styZp _   => some (.storeY, .zeroPage)
  | .styZpX _  => some (.storeY, .zeroPageX)
  | .styAbs _  => some (.storeY, .absolute)
  | .jsr _     => some (.jumpToSubroutine, .absolute)
  | .unhandled _ => none

/-- Decode of the loop in R76: the pair an opcode byte selects. It depends on no other byte (R52). -/
def opcodeMap (op : Byte) : Option (OpKind × Mode) := (decodeOp op 0 0).pair

/-- The number of operand bytes of a mode (R53). -/
def Mode.operandBytes : Mode → Nat
  | .immediate | .zeroPage | .zeroPageX | .zeroPageY | .indirectX | .indirectY => 1
  | .absolute | .absoluteX | .absoluteY => 2

/-- The length of the instruction an opcode byte begins (R53): 1 for an Unhandled byte. -/
def opcodeLength (op : Byte) : Nat :=
  match opcodeMap op with
  | some (_, m) => 1 + m.operandBytes
  | none        => 1

/-- The length of an instruction in bytes (R53, R59). -/
def Instr.length (i : Instr) : Nat :=
  match i.pair with
  | some (_, m) => 1 + m.operandBytes
  | none        => 1

/-- Why a list of bytes holds no instruction. No byte VALUE is ever rejected (R55): only a list that ends
before the instruction does. Assumption log 17. -/
inductive DecodeError
  /-- the list is empty -/
  | noBytes
  /-- the list ends inside the instruction that the opcode byte `op` begins -/
  | truncated (op : Byte)
  deriving DecidableEq, Repr

/-- The instruction at the head of a list of bytes, lowest address first, and the bytes after it. -/
def decode : List Byte → Except DecodeError (Instr × List Byte)
  | [] => .error .noBytes
  | op :: rest =>
    match opcodeLength op, rest with
    | 1, rest            => .ok (decodeOp op 0 0, rest)
    | 2, lo :: rest      => .ok (decodeOp op lo 0, rest)
    | 3, lo :: hi :: rest => .ok (decodeOp op lo hi, rest)
    | _, _               => .error (.truncated op)

/-- The bytes of an instruction, lowest address first (R53, R54, R56): the word operand low byte first. -/
def encode : Instr → List Byte
  | .ldaImm v  => [0xA9, v]
  | .ldaZp b   => [0xA5, b]
  | .ldaZpX b  => [0xB5, b]
  | .ldaAbs w  => [0xAD, lo8 w, hi8 w]
  | .ldaAbsX w => [0xBD, lo8 w, hi8 w]
  | .ldaAbsY w => [0xB9, lo8 w, hi8 w]
  | .ldaIndX b => [0xA1, b]
  | .ldaIndY b => [0xB1, b]
  | .ldxImm v  => [0xA2, v]
  | .ldxZp b   => [0xA6, b]
  | .ldxZpY b  => [0xB6, b]
  | .ldxAbs w  => [0xAE, lo8 w, hi8 w]
  | .ldxAbsY w => [0xBE, lo8 w, hi8 w]
  | .ldyImm v  => [0xA0, v]
  | .ldyZp b   => [0xA4, b]
  | .ldyZpX b  => [0xB4, b]
  | .ldyAbs w  => [0xAC, lo8 w, hi8 w]
  | .ldyAbsX w => [0xBC, lo8 w, hi8 w]
  | .staZp b   => [0x85, b]
  | .staZpX b  => [0x95, b]
  | .staAbs w  => [0x8D, lo8 w, hi8 w]
  | .staAbsX w => [0x9D, lo8 w, hi8 w]
  | .staAbsY w => [0x99, lo8 w, hi8 w]
  | .staIndX b => [0x81, b]
  | .staIndY b => [0x91, b]
  | .stxZp b   => [0x86, b]
  | .stxZpY b  => [0x96, b]
  | .stxAbs w  => [0x8E, lo8 w, hi8 w]
  | .styZp b   => [0x84, b]
  | .styZpX b  => [0x94, b]
  | .styAbs w  => [0x8C, lo8 w, hi8 w]
  | .jsr w     => [0x20, lo8 w, hi8 w]
  | .unhandled op => [op]

/-- Byte `k` of an instruction whose `nbits` bits are `w`, bit 0 the least significant bit of the first
byte; every bit from `nbits` up is 0. -/
def tableByte (nbits w k : Nat) : Byte := BitVec.ofNat 8 ((w % 2 ^ nbits) / 2 ^ (8 * k))

/-- The bytes of a table word as memory holds them: the longest instruction has three (R59). -/
def tableBytes (nbits w : Nat) : List Byte :=
  [tableByte nbits w 0, tableByte nbits w 1, tableByte nbits w 2]

/-- What the decoder reads from a table word. -/
def decodeTableWord (nbits w : Nat) : Option Instr :=
  match decode (tableBytes nbits w) with
  | .ok (i, _) => some i
  | .error _   => none

end Sys2Proof
end

