-- ==== Sys2Proof/Config.lean ====
section
/-! DEFINITION. The implementation parameters of spec/00_scope.md R9, the OPEN parameter JSR_SP_NEXT,
and the free values that stand for what the spec leaves unspecified after a fault. -/
namespace Sys2Proof

/-- WRAP16 (R9, R36): what an unmasked 16-bit sum above 0xFFFF does. -/
inductive Wrap16
  | fault
  | wrap
  deriving DecidableEq, Repr

/-- PAGE_CROSS_TEST (R9, R63). -/
inductive PageCrossTest
  | highByte
  | indexFF
  deriving DecidableEq, Repr

/-- STORE_INDY_FIXUP (R9, R104). -/
inductive StoreIndyFixup
  | always
  | conditional
  deriving DecidableEq, Repr

/-- ZP_PTR_HI (R9, R64). -/
inductive ZpPtrHi
  | linear
  | zeroPage
  deriving DecidableEq, Repr

/-- ILLEGAL_POLICY (R9, R125). -/
inductive IllegalPolicy
  | reportAndContinue
  | halt
  deriving DecidableEq, Repr

/-- The parameters of R9 that have a default. JSR_SP_NEXT, which has none, is `Config.jsrSpNext`. -/
structure Params where
  wrap16         : Wrap16
  pageCrossTest  : PageCrossTest
  storeIndyFixup : StoreIndyFixup
  zpPtrHi        : ZpPtrHi
  illegalPolicy  : IllegalPolicy
  resetPc        : Addr
  deriving DecidableEq, Repr

/-- The defaults of R9. -/
def Params.default : Params where
  wrap16         := .fault
  pageCrossTest  := .highByte
  storeIndyFixup := .always
  zpPtrHi        := .linear
  illegalPolicy  := .reportAndContinue
  resetPc        := 0xFFFC

/-- JSR_SP_NEXT (R9, R120): the OPEN parameter u16 → u16, with no default. It has no body, so a claim
proved about it holds for every such function. Assumption log 2. -/
opaque Config.jsrSpNext : BitVec 16 → BitVec 16

/-! The free values after an AddressOverflow (R126: "registers, flags and memory … a model must treat
them as unspecified", "the value `execute` returns is unspecified"). The first argument is
`State.faults`, so that two faults are not tied to one another. Assumption log 8. -/

/-- PC (selector 0) and SP (selector 1) after the n-th fault: free. -/
opaque Config.faultWord : Nat → Nat → BitVec 16

/-- A, X and Y (selectors 0, 1, 2) after the n-th fault: free. -/
opaque Config.faultByte : Nat → Nat → BitVec 8

/-- C, Z, I, D, B, V, N (selectors 0 to 6) after the n-th fault: free. -/
opaque Config.faultFlag : Nat → Nat → Bool

/-- The memory cell at an address after the n-th fault: free. -/
opaque Config.faultCell : Nat → Nat → BitVec 8

/-- The cycle count `execute` returns at the n-th fault: free. -/
opaque Config.faultUsed : Nat → Int

end Sys2Proof
end

