-- ==== Sys2Proof/Machine/State.lean ====
section
/-! DEFINITION. The state of the block (spec/10_state.md R14, R24, R28, R29; spec/20_memory.md R32), its
stops, and the state right after reset (R30). All plain data. -/
namespace Sys2Proof.Machine

/-- Memory as the listed cells (address, byte); an address not listed reads as `unlistedByte`. The
canonical form is `Memory.wf` (Machine/Ops.lean). -/
abbrev Memory := List Host.Cell

/-- What an unlisted cell holds: reset clears every cell to 0x00 (R30, R35). -/
def unlistedByte : Byte := 0x00

/-- `status` of R29. -/
inductive RunStatus
  /-- the core runs -/
  | running
  /-- stopped by AddressOverflow(a, b) until reset (R126) -/
  | faulted (a : Addr) (b : Nat)
  deriving DecidableEq, Repr

/-- One InvalidOpcode(byte, address) event (R125). -/
structure InvalidOpcode where
  opcode  : Byte
  address : Addr
  deriving DecidableEq, Repr

/-- The whole machine. INVENTORY.md's '## State' gives each field's rule and reset value. -/
structure State where
  /-- PC: address of the next byte to fetch (R18) -/
  pc        : Addr
  /-- SP, 16 bits; only the low byte enters the stack slot (R20) -/
  sp        : Addr
  /-- A (R15) -/
  a         : Byte
  /-- X (R16) -/
  x         : Byte
  /-- Y (R17) -/
  y         : Byte
  /-- C (R22) -/
  c         : Bool
  /-- Z (R22) -/
  z         : Bool
  /-- I (R22) -/
  i         : Bool
  /-- D (R22) -/
  d         : Bool
  /-- B (R22) -/
  b         : Bool
  /-- V (R22) -/
  v         : Bool
  /-- N (R22) -/
  n         : Bool
  /-- the unused reserved bit (R24): nothing reads or writes it. Assumption log 9. -/
  reserved  : Bool
  /-- the 65536 cells (R32) -/
  mem       : Memory
  /-- the cycle counter (R28). Assumption log 5. -/
  remaining : Int
  /-- run status (R29) -/
  status    : RunStatus
  /-- the diagnostic log, oldest first (R29) -/
  diag      : List InvalidOpcode
  /-- the parameters of R9, which nothing changes (R27). Assumption log 1. -/
  params    : Params
  /-- the model's own count of recorded faults, which picks the free values. Assumption log 8. -/
  faults    : Nat
  deriving DecidableEq, Repr

/-- Why the machine stops. -/
inductive Fault
  /-- AddressOverflow(a, b) of R126. Raised by `add16` when an unmasked 16-bit sum exceeds 0xFFFF under
  WRAP16 = Fault (R36), and by `step` on a core that such a fault has already stopped. It is the
  spec's own stop; the state after it is unspecified. Safe. -/
  | addressOverflow (a : Addr) (b : Nat)
  deriving DecidableEq, Repr

/-- Why an instruction has no meaning in the model. -/
inductive Refusal
  /-- The instruction of that mnemonic is not modelled yet. Raised by no arm of `exec`: every
  instruction has its meaning. Safe. -/
  | notModelled (mnemonic : String)
  deriving DecidableEq, Repr

/-- The machine right after reset with the default parameters (R30, R139): PC = RESET_PC, SP = 0x0100,
A = X = Y = 0, every flag 0, every cell 0x00, Running. `reserved`, `remaining`, `faults` and the empty
`diag` are the model's values (assumption log 9, 5, 8, 10). -/
def State.reset : State where
  pc        := Params.default.resetPc
  sp        := 0x0100
  a         := 0
  x         := 0
  y         := 0
  c         := false
  z         := false
  i         := false
  d         := false
  b         := false
  v         := false
  n         := false
  reserved  := false
  mem       := []
  remaining := 0
  status    := .running
  diag      := []
  params    := Params.default
  faults    := 0

end Sys2Proof.Machine
end

