-- ==== Sys2Proof/Machine/Ops.lean ====
section
/-! DEFINITION. The named operations every meaning is built from: the memory cells (spec/20_memory.md R33 to
R35), the 16-bit address sum (R36), the cycle counter (41_dispatch.md R75), the six access primitives
(R37 to R42), the two abnormal events (60_exceptions.md R125, R126), and the fetch of an
instruction's bytes (30_encoding.md R59). There is no trap entry and no trap return (R129, R130). -/
namespace Sys2Proof.Machine

/-! ## Memory cells -/

/-- The byte of a cell. -/
def Memory.read : Memory → Nat → Byte
  | [], _ => unlistedByte
  | (k, w) :: m, a => if a = k then w else Memory.read m a

/-- Write one cell, keeping the canonical form: a cell that holds `unlistedByte` is not listed. -/
def Memory.write : Memory → Nat → Byte → Memory
  | [], a, v => if v = unlistedByte then [] else [(a, v)]
  | (k, w) :: m, a, v =>
    if a < k then
      if v = unlistedByte then (k, w) :: m else (a, v) :: (k, w) :: m
    else if a = k then
      if v = unlistedByte then m else (a, v) :: m
    else (k, w) :: Memory.write m a v

/-- Every listed address is at least `lo` and below 65536, the addresses rise strictly, and no listed
cell holds `unlistedByte`. -/
def Memory.wfFrom : Nat → Memory → Bool
  | _, [] => true
  | lo, (k, w) :: m =>
    decide (lo ≤ k) && decide (k < 65536) && decide (w ≠ unlistedByte) && Memory.wfFrom (k + 1) m

/-- The canonical form of memory. -/
def Memory.wf (m : Memory) : Bool := Memory.wfFrom 0 m

/-- The cells from address `lo` on, `count` of them, in canonical form. -/
def Memory.ofCells (f : Nat → Byte) : Nat → Nat → Memory
  | _, 0 => []
  | lo, count + 1 =>
    if f lo = unlistedByte then Memory.ofCells f (lo + 1) count
    else (lo, f lo) :: Memory.ofCells f (lo + 1) count

/-- `MemRead(addr, 1)`: no cycle, no side effect (R33, R34). -/
def memRead (s : State) (addr : Addr) : Byte := s.mem.read addr.toNat

/-- `MemWrite(addr, 1, v)`: changes that cell alone, no cycle (R33, R34). -/
def memWrite (addr : Addr) (v : Byte) (s : State) : State :=
  { s with mem := s.mem.write addr.toNat v }

/-- `clear()`: every cell 0x00 (R35). -/
def memClear (s : State) : State := { s with mem := [] }

/-! ## Registers -/

/-- The value of A, X or Y. -/
def getReg (r : Reg) (s : State) : Byte :=
  match r with
  | .a => s.a
  | .x => s.x
  | .y => s.y

/-- Write A, X or Y. -/
def setReg (r : Reg) (v : Byte) (s : State) : State :=
  match r with
  | .a => { s with a := v }
  | .x => { s with x := v }
  | .y => { s with y := v }

/-! ## The abnormal events -/

/-- `raise AddressOverflow(a, b)`: ends the statement sequence (R13, R126). -/
def raiseAddressOverflow {α : Type} (a : Addr) (b : Nat) : Except Fault α :=
  .error (.addressOverflow a b)

/-- `raise InvalidOpcode(op, addr)`: the event is appended to `diag` and nothing else changes (R125).
Whether `execute` then returns is ILLEGAL_POLICY's, in Machine/HostPort.lean. -/
def raiseInvalidOpcode (op : Byte) (addr : Addr) (s : State) : State :=
  { s with diag := s.diag ++ [⟨op, addr⟩] }

/-- The state in which AddressOverflow(a, b) leaves the core (R126): `status` is Faulted, every register,
flag and memory cell is a free value, and `diag` is as it was (R127). Assumption log 7, 8 and 11. -/
def recordAddressOverflow (a : Addr) (b : Nat) (s : State) : State :=
  { s with
    pc     := Config.faultWord s.faults 0
    sp     := Config.faultWord s.faults 1
    a      := Config.faultByte s.faults 0
    x      := Config.faultByte s.faults 1
    y      := Config.faultByte s.faults 2
    c      := Config.faultFlag s.faults 0
    z      := Config.faultFlag s.faults 1
    i      := Config.faultFlag s.faults 2
    d      := Config.faultFlag s.faults 3
    b      := Config.faultFlag s.faults 4
    v      := Config.faultFlag s.faults 5
    n      := Config.faultFlag s.faults 6
    mem    := Memory.ofCells (Config.faultCell s.faults) 0 65536
    status := .faulted a b
    faults := s.faults + 1 }

/-! ## Address arithmetic and the cycle counter -/

/-- `add16(a, b)` (R36). -/
def add16 (p : Params) (a : Addr) (b : Nat) : Except Fault Addr :=
  if a.toNat + b ≤ 0xFFFF then .ok (BitVec.ofNat 16 (a.toNat + b))
  else
    match p.wrap16 with
    | .fault => raiseAddressOverflow a b
    | .wrap  => .ok (BitVec.ofNat 16 (a.toNat + b - 0x10000))

/-- `charge(n)`: remaining ← remaining − n (R75). -/
def charge (n : Nat) (s : State) : State := { s with remaining := s.remaining - n }

/-! ## The access primitives -/

/-- The part of `FetchByte()` that follows the read: PC ← add16(PC, 1), charge(1) (R37). -/
def advance (s : State) : Except Fault State := do
  let pc ← add16 s.params s.pc 1
  pure (charge 1 { s with pc := pc })

/-- `FetchByte()` (R37). -/
def fetchByte (s : State) : Except Fault (Byte × State) := do
  let v := memRead s s.pc
  let s ← advance s
  pure (v, s)

/-- `FetchWord()` (R38): low byte first. -/
def fetchWord (s : State) : Except Fault (Addr × State) := do
  let (lo, s) ← fetchByte s
  let (hi, s) ← fetchByte s
  pure (wordOf hi lo, s)

/-- `n` fetches whose bytes the decoder has already read: only PC and the cycle counter change.
Assumption log 3. -/
def advanceBy : Nat → State → Except Fault State
  | 0, s => pure s
  | k + 1, s => do
    let s ← advance s
    advanceBy k s

/-- `ReadByte(a)` (R39). -/
def readByte (addr : Addr) (s : State) : Byte × State :=
  (memRead s addr, charge 1 s)

/-- `ReadWord(a)` (R40). -/
def readWord (addr : Addr) (s : State) : Except Fault (Addr × State) := do
  let (lo, s) := readByte addr s
  let next ← add16 s.params addr 1
  let (hi, s) := readByte next s
  pure (wordOf hi lo, s)

/-- `WriteByte(a, v)` (R41). -/
def writeByte (addr : Addr) (v : Byte) (s : State) : State :=
  charge 1 (memWrite addr v s)

/-- `WriteWord(a, v)` (R42): the low byte at `a`, the high byte at add16(a, 1). -/
def writeWord (addr : Addr) (w : Addr) (s : State) : Except Fault State := do
  let s := memWrite addr (lo8 w) s
  let next ← add16 s.params addr 1
  let s := memWrite next (hi8 w) s
  pure (charge 2 s)

/-! ## Fetching an instruction -/

/-- The three bytes from PC on. The addresses wrap: an instruction that runs past 0xFFFF faults on the PC
advance under WRAP16 = Fault whatever these bytes are, and takes them from 0x0000 on under Wrap
(R19, R36). Assumption log 4. -/
def instrBytes (s : State) : List Byte :=
  [memRead s s.pc, memRead s (s.pc + 1), memRead s (s.pc + 2)]

/-- The instruction at PC (R52, R55, R76). -/
def instrAt (s : State) : Instr :=
  decodeOp (memRead s s.pc) (memRead s (s.pc + 1)) (memRead s (s.pc + 2))

/-- Write bytes to consecutive addresses, as the host's pokes do (R34). -/
def pokeBytes : List Byte → Addr → State → State
  | [], _, s => s
  | v :: vs, addr, s => pokeBytes vs (addr + 1) (memWrite addr v s)

/-- The outcome of a step: a finished instruction gives the next state, a raised AddressOverflow stops the
core (R126). -/
def finish : Except Fault State → Host.Outcome State Fault Refusal
  | .ok s    => .next s
  | .error f => .fault f

end Sys2Proof.Machine
end

