-- ==== Sys2Proof/Machine/Flags.lean ====
section
/-! DEFINITION. The only flag computation of the block: `SetZN` of spec/42_load.md R83. No instruction
computes a carry or an overflow, and no instruction reads a flag (R22, R23). -/
namespace Sys2Proof.Machine

/-- Z of a loaded value: 1 iff it is 0x00 (R83). -/
def zeroFlag (v : Byte) : Bool := v == 0

/-- N of a loaded value: its bit 7 (R83). -/
def negativeFlag (v : Byte) : Bool := v.getLsbD 7

/-- `SetZN(v)`: exactly Z and N (R83). -/
def setZN (v : Byte) (s : State) : State :=
  { s with z := zeroFlag v, n := negativeFlag v }

end Sys2Proof.Machine
end

