-- ==== Sys2Proof/Machine/Operands.lean ====
section
/-! DEFINITION. The addressing-mode resolver of spec/40_addressing_modes.md: the page-cross test (R63), the
zero-page pointer (R64), and the effective address and extra cycles of each mode (R66 to R73). -/
namespace Sys2Proof.Machine

/-- `PageCross(base, idx, ea)` under PAGE_CROSS_TEST (R63). The index does not enter either test. -/
def pageCross (p : Params) (base ea : Addr) : Bool :=
  match p.pageCrossTest with
  | .highByte => decide (hi8 ea ≠ hi8 base)
  | .indexFF  => decide (0xFF ≤ (ea - base).toNat)

/-- `ReadZpPtr(p)` under ZP_PTR_HI (R64). -/
def readZpPtr (p : Byte) (s : State) : Except Fault (Addr × State) :=
  match s.params.zpPtrHi with
  | .linear => readWord (zext16 p) s
  | .zeroPage =>
    let (lo, s) := readByte (zext16 p) s
    let (hi, s) := readByte (zext16 (p + 1)) s
    pure (wordOf hi lo, s)

/-- charge(1) if the condition holds. -/
def chargeIf (cond : Bool) (s : State) : State := if cond then charge 1 s else s

/-- AbsoluteX and AbsoluteY after the base word is fetched (R70, R71): the sum is not masked, and the
conditional cycle is a load's alone. -/
def resolveAbsIndexed (base : Addr) (idx : Byte) (purpose : Purpose) (s : State) :
    Except Fault (Addr × State) := do
  let ea ← add16 s.params base idx.toNat
  pure (ea, chargeIf (decide (purpose = .load) && pageCross s.params base ea) s)

/-- IndirectX after the operand byte is fetched (R72). -/
def resolveIndirectX (b : Byte) (s : State) : Except Fault (Addr × State) :=
  readZpPtr (b + s.x) (charge 1 s)

/-- IndirectY after the operand byte is fetched (R73). -/
def resolveIndirectY (b : Byte) (purpose : Purpose) (s : State) : Except Fault (Addr × State) := do
  let (ptr, s) ← readZpPtr b s
  let ea ← add16 s.params ptr s.y.toNat
  let extra := (decide (purpose = .load) || decide (s.params.storeIndyFixup = .conditional))
    && pageCross s.params ptr ea
  pure (ea, chargeIf extra s)

/-- `Resolve(mode, purpose)` (R62, R66 to R73) once the mode's operand bytes, carried by the operand, have
been fetched: the effective address and the extra cycles. An 8-bit sum wraps inside the zero page. -/
def resolve (o : Operand) (purpose : Purpose) (s : State) : Except Fault (Addr × State) :=
  match o with
  | .zeroPage b  => pure (zext16 b, s)
  | .zeroPageX b => pure (zext16 (b + s.x), charge 1 s)
  | .zeroPageY b => pure (zext16 (b + s.y), charge 1 s)
  | .absolute w  => pure (w, s)
  | .absoluteX w => resolveAbsIndexed w s.x purpose s
  | .absoluteY w => resolveAbsIndexed w s.y purpose s
  | .indirectX b => resolveIndirectX b s
  | .indirectY b => resolveIndirectY b purpose s

/-- The number of operand bytes a resolved operand stands for (R53). -/
def operandBytes : Operand → Nat
  | .zeroPage _ | .zeroPageX _ | .zeroPageY _ | .indirectX _ | .indirectY _ => 1
  | .absolute _ | .absoluteX _ | .absoluteY _ => 2

/-- The store's fixed fix-up cycle, charged after the write (R104). -/
def storeFixup (p : Params) (o : Operand) : Bool :=
  match o with
  | .absoluteX _ | .absoluteY _ => true
  | .indirectY _ => decide (p.storeIndyFixup = .always)
  | .zeroPage _ | .zeroPageX _ | .zeroPageY _ | .absolute _ | .indirectX _ => false

end Sys2Proof.Machine
end

