-- ==== Sys2Proof/Machine/Load.lean ====
section
/-! DEFINITION. The load family of spec/42_load.md: LDA, LDX and LDY, 18 opcodes. -/
namespace Sys2Proof.Machine

/-- The end of every load: r ← v, SetZN(r) (R83, R84). -/
def loadValue (r : Reg) (v : Byte) (s : State) : State := setZN v (setReg r v s)

/-- `Load(r, Immediate)` with the opcode fetch (R84): the operand byte is the value. -/
def loadImmediate (r : Reg) (v : Byte) (s : State) : Except Fault State := do
  let s ← advanceBy 2 s
  pure (loadValue r v s)

/-- `Load(r, mode)` with the opcode fetch (R84): fetch, resolve, ReadByte, write r, SetZN. -/
def load (r : Reg) (o : Operand) (s : State) : Except Fault State := do
  let s ← advanceBy (1 + operandBytes o) s
  let (ea, s) ← resolve o .load s
  let (v, s) := readByte ea s
  pure (loadValue r v s)

/-- `LDA #$nn` (R86). -/
def execLdaImm (v : Byte) (s : State) : Host.Outcome State Fault Refusal :=
  finish (loadImmediate .a v s)

/-- `LDA $nn` (R87). -/
def execLdaZp (b : Byte) (s : State) : Host.Outcome State Fault Refusal :=
  finish (load .a (.zeroPage b) s)

/-- `LDA $nn,X` (R88). -/
def execLdaZpX (b : Byte) (s : State) : Host.Outcome State Fault Refusal :=
  finish (load .a (.zeroPageX b) s)

/-- `LDA $nnnn` (R89). -/
def execLdaAbs (w : Addr) (s : State) : Host.Outcome State Fault Refusal :=
  finish (load .a (.absolute w) s)

/-- `LDA $nnnn,X` (R90). -/
def execLdaAbsX (w : Addr) (s : State) : Host.Outcome State Fault Refusal :=
  finish (load .a (.absoluteX w) s)

/-- `LDA $nnnn,Y` (R91). -/
def execLdaAbsY (w : Addr) (s : State) : Host.Outcome State Fault Refusal :=
  finish (load .a (.absoluteY w) s)

/-- `LDA ($nn,X)` (R92). -/
def execLdaIndX (b : Byte) (s : State) : Host.Outcome State Fault Refusal :=
  finish (load .a (.indirectX b) s)

/-- `LDA ($nn),Y` (R93). -/
def execLdaIndY (b : Byte) (s : State) : Host.Outcome State Fault Refusal :=
  finish (load .a (.indirectY b) s)

/-- `LDX #$nn` (R94). -/
def execLdxImm (v : Byte) (s : State) : Host.Outcome State Fault Refusal :=
  finish (loadImmediate .x v s)

/-- `LDX $nn` (R95). -/
def execLdxZp (b : Byte) (s : State) : Host.Outcome State Fault Refusal :=
  finish (load .x (.zeroPage b) s)

/-- `LDX $nn,Y` (R96). -/
def execLdxZpY (b : Byte) (s : State) : Host.Outcome State Fault Refusal :=
  finish (load .x (.zeroPageY b) s)

/-- `LDX $nnnn` (R97). -/
def execLdxAbs (w : Addr) (s : State) : Host.Outcome State Fault Refusal :=
  finish (load .x (.absolute w) s)

/-- `LDX $nnnn,Y` (R98). -/
def execLdxAbsY (w : Addr) (s : State) : Host.Outcome State Fault Refusal :=
  finish (load .x (.absoluteY w) s)

/-- `LDY #$nn` (R99). -/
def execLdyImm (v : Byte) (s : State) : Host.Outcome State Fault Refusal :=
  finish (loadImmediate .y v s)

/-- `LDY $nn` (R100). -/
def execLdyZp (b : Byte) (s : State) : Host.Outcome State Fault Refusal :=
  finish (load .y (.zeroPage b) s)

/-- `LDY $nn,X` (R101). -/
def execLdyZpX (b : Byte) (s : State) : Host.Outcome State Fault Refusal :=
  finish (load .y (.zeroPageX b) s)

/-- `LDY $nnnn` (R102). -/
def execLdyAbs (w : Addr) (s : State) : Host.Outcome State Fault Refusal :=
  finish (load .y (.absolute w) s)

/-- `LDY $nnnn,X` (R103). -/
def execLdyAbsX (w : Addr) (s : State) : Host.Outcome State Fault Refusal :=
  finish (load .y (.absoluteX w) s)

end Sys2Proof.Machine
end

