-- ==== Sys2Proof/Machine/Store.lean ====
section
/-! DEFINITION. The store family of spec/43_store.md: STA, STX and STY, 13 opcodes. -/
namespace Sys2Proof.Machine

/-- `Store(r, mode)` with the opcode fetch (R104): fetch, resolve, WriteByte, then the fixed cycle of the
indexed forms. No flag and no register but PC changes. -/
def store (r : Reg) (o : Operand) (s : State) : Except Fault State := do
  let s ← advanceBy (1 + operandBytes o) s
  let (ea, s) ← resolve o .store s
  pure (chargeIf (storeFixup s.params o) (writeByte ea (getReg r s) s))

/-- `STA $nn` (R106). -/
def execStaZp (b : Byte) (s : State) : Host.Outcome State Fault Refusal :=
  finish (store .a (.zeroPage b) s)

/-- `STA $nn,X` (R107). -/
def execStaZpX (b : Byte) (s : State) : Host.Outcome State Fault Refusal :=
  finish (store .a (.zeroPageX b) s)

/-- `STA $nnnn` (R108). -/
def execStaAbs (w : Addr) (s : State) : Host.Outcome State Fault Refusal :=
  finish (store .a (.absolute w) s)

/-- `STA $nnnn,X` (R109). -/
def execStaAbsX (w : Addr) (s : State) : Host.Outcome State Fault Refusal :=
  finish (store .a (.absoluteX w) s)

/-- `STA $nnnn,Y` (R110). -/
def execStaAbsY (w : Addr) (s : State) : Host.Outcome State Fault Refusal :=
  finish (store .a (.absoluteY w) s)

/-- `STA ($nn,X)` (R111). -/
def execStaIndX (b : Byte) (s : State) : Host.Outcome State Fault Refusal :=
  finish (store .a (.indirectX b) s)

/-- `STA ($nn),Y` (R112). -/
def execStaIndY (b : Byte) (s : State) : Host.Outcome State Fault Refusal :=
  finish (store .a (.indirectY b) s)

/-- `STX $nn` (R113). -/
def execStxZp (b : Byte) (s : State) : Host.Outcome State Fault Refusal :=
  finish (store .x (.zeroPage b) s)

/-- `STX $nn,Y` (R114). -/
def execStxZpY (b : Byte) (s : State) : Host.Outcome State Fault Refusal :=
  finish (store .x (.zeroPageY b) s)

/-- `STX $nnnn` (R115). -/
def execStxAbs (w : Addr) (s : State) : Host.Outcome State Fault Refusal :=
  finish (store .x (.absolute w) s)

/-- `STY $nn` (R116). -/
def execStyZp (b : Byte) (s : State) : Host.Outcome State Fault Refusal :=
  finish (store .y (.zeroPage b) s)

/-- `STY $nn,X` (R117). -/
def execStyZpX (b : Byte) (s : State) : Host.Outcome State Fault Refusal :=
  finish (store .y (.zeroPageX b) s)

/-- `STY $nnnn` (R118). -/
def execStyAbs (w : Addr) (s : State) : Host.Outcome State Fault Refusal :=
  finish (store .y (.absolute w) s)

end Sys2Proof.Machine
end

