-- ==== Sys2Proof/Machine/Subroutine.lean ====
section
/-! DEFINITION. The subroutine call of spec/44_jsr.md. There is no return instruction (R121). -/
namespace Sys2Proof.Machine

/-- The stack slot `0x0100 | SP[7:0]` (10_state.md R20). -/
def stackSlot (sp : Addr) : Addr := 0x0100 ||| zext16 (lo8 sp)

/-- JSR with the opcode fetch (R119). The return address is PC − 1 after the three fetches. -/
def jumpToSubroutine (target : Addr) (s : State) : Except Fault State := do
  let s ← advanceBy 3 s
  let s ← writeWord (stackSlot s.sp) (s.pc - 1) s
  pure (charge 1 { s with sp := Config.jsrSpNext s.sp, pc := target })

/-- `JSR $nnnn` (R119). -/
def execJsr (target : Addr) (s : State) : Host.Outcome State Fault Refusal :=
  finish (jumpToSubroutine target s)

end Sys2Proof.Machine
end

