-- ==== Sys2Proof/Machine/Unhandled.lean ====
section
/-! DEFINITION. The Unhandled opcodes of spec/45_unhandled.md: 224 bytes, 0x60 among them (R123). -/
namespace Sys2Proof.Machine

/-- The opcode fetch, then InvalidOpcode(op, addr), `addr` being PC before the fetch (R122, R125). An
AddressOverflow of the fetch comes first, and then nothing is reported (R127). -/
def reportUnhandled (op : Byte) (s : State) : Except Fault State := do
  let addr := s.pc
  let s ← advanceBy 1 s
  pure (raiseInvalidOpcode op addr s)

/-- Any byte of R58 (R122). -/
def execUnhandled (op : Byte) (s : State) : Host.Outcome State Fault Refusal :=
  finish (reportUnhandled op s)

end Sys2Proof.Machine
end

