-- ==== Sys2Proof/Machine/Step.lean ====
section
/-! DEFINITION. One round of the fetch-decode-execute loop (spec/41_dispatch.md R76, R79), and the host's
placing of one instruction at PC. -/
namespace Sys2Proof.Machine

/-- One whole instruction. A core stopped by AddressOverflow runs nothing and stays stopped (R126);
otherwise the instruction at PC runs. The budget test is the loop's, in Machine/HostPort.lean. -/
def step (s : State) : Host.Outcome State Fault Refusal :=
  match s.status with
  | .faulted a b => .fault (.addressOverflow a b)
  | .running     => exec (instrAt s) s

/-- The state with a table word's bytes poked at PC, as the host places a program (R34, R141). Only memory
changes. Assumption log 15. -/
def State.withFetchWord (s : State) (nbits w : Nat) : State :=
  pokeBytes (tableBytes nbits w) s.pc s

end Sys2Proof.Machine
end

