-- ==== Sys2Proof/Machine/HostPort.lean ====
section
/-! DEFINITION. The host port of spec/00_scope.md R5: `reset()` (70_reset_and_hazards.md R139), `execute(n)`
(41_dispatch.md R76), the setters and getters (10_state.md R26) and the memory pokes and peeks
(20_memory.md R34). Commands are taken one at a time, between `execute` calls (R5, R81). -/
namespace Sys2Proof.Machine

/-- `reset()` (R139). `diag` is not changed and the parameters are kept (R27, R30); the cycle counter, the
reserved bit and the model's fault counter are left as they are. Assumption log 5, 8 and 9. -/
def hostReset (s : State) : State :=
  memClear { s with
    pc := s.params.resetPc, sp := 0x0100
    a := 0, x := 0, y := 0
    c := false, z := false, i := false, d := false, b := false, v := false, n := false
    status := .running }

/-! ## execute -/

/-- The state with the cycle counter at a value (R28). -/
def setRemaining (v : Int) (s : State) : State := { s with remaining := v }

/-- The outcome `execute` returns beside the cycles used (R76). -/
inductive ExecuteOutcome
  /-- the budget is met or exceeded -/
  | ok
  /-- an Unhandled opcode under ILLEGAL_POLICY = Halt (R125) -/
  | invalidOpcode (op : Byte) (addr : Addr)
  /-- the core was already stopped by AddressOverflow when `execute` was called (R76, R126), or stopped during
  this call, where the outcome is the model's choice (assumption log 23) -/
  | faulted
  /-- an instruction without a meaning; no instruction of this model is one -/
  | refused (r : Refusal)
  deriving DecidableEq, Repr

/-- What `execute` returns, and the state it leaves. -/
structure ExecuteResult where
  used    : Int
  outcome : ExecuteOutcome
  state   : State
  deriving DecidableEq, Repr

/-- The stop `execute` makes after an instruction (R76): its opcode byte, fetched from `addr`, is Unhandled
and ILLEGAL_POLICY = Halt. -/
def haltOn (p : Params) (op : Byte) (addr : Addr) : Option ExecuteOutcome :=
  if p.illegalPolicy = .halt ∧ opcodeMap op = none then some (.invalidOpcode op addr) else none

/-- The loop of R76. The fuel bounds the rounds: every instruction costs at least one cycle (R146), so
`requested` rounds are enough (assumption log 16). A fault ends `execute` at once, and what that call
returns is unspecified (R126): the count is a free value (assumption log 8), and the outcome `faulted` is a
DESIGN CHOICE (assumption log 23). -/
def executeLoop (requested : Nat) : Nat → State → ExecuteResult
  | 0, s => ⟨requested - s.remaining, .ok, s⟩
  | fuel + 1, s =>
    if 0 < s.remaining then
      match step s with
      | .next t =>
        match haltOn s.params (memRead s s.pc) s.pc with
        | some stop => ⟨requested - t.remaining, stop, t⟩
        | none      => executeLoop requested fuel t
      | .fault (.addressOverflow a b) =>
        ⟨Config.faultUsed s.faults, .faulted, recordAddressOverflow a b s⟩
      | .refused r => ⟨requested - s.remaining, .refused r, s⟩
    else ⟨requested - s.remaining, .ok, s⟩

/-- `execute(requested)` (R76). The counter lives inside the call: it starts at `requested`, and on return
the field holds what it held before (R28, R81; assumption log 5). -/
def hostExecute (requested : Nat) (s : State) : ExecuteResult :=
  match s.status with
  | .faulted _ _ => ⟨0, .faulted, s⟩
  | .running =>
    let r := executeLoop requested requested (setRemaining requested s)
    ⟨r.used, r.outcome, setRemaining s.remaining r.state⟩

/-! ## Registers, flags and memory -/

/-- The registers of 16 bits with a getter and a setter (R26). -/
inductive WordReg
  | pc
  | sp
  deriving DecidableEq, Repr

/-- The flags with a getter and a setter (R26). -/
inductive FlagName
  | c
  | z
  | i
  | d
  | b
  | v
  | n
  deriving DecidableEq, Repr

/-- `get_pc()`, `get_sp()`. -/
def getWordReg (r : WordReg) (s : State) : Addr :=
  match r with
  | .pc => s.pc
  | .sp => s.sp

/-- `set_pc(v)`, `set_sp(v)`: all 16 bits, unchecked (R26). -/
def setWordReg (r : WordReg) (v : Addr) (s : State) : State :=
  match r with
  | .pc => { s with pc := v }
  | .sp => { s with sp := v }

/-- The flag getters (R26). -/
def getFlag (f : FlagName) (s : State) : Bool :=
  match f with
  | .c => s.c
  | .z => s.z
  | .i => s.i
  | .d => s.d
  | .b => s.b
  | .v => s.v
  | .n => s.n

/-- The flag setters (R26). -/
def setFlag (f : FlagName) (v : Bool) (s : State) : State :=
  match f with
  | .c => { s with c := v }
  | .z => { s with z := v }
  | .i => { s with i := v }
  | .d => { s with d := v }
  | .b => { s with b := v }
  | .v => { s with v := v }
  | .n => { s with n := v }

/-- The commands of R5. -/
inductive HostCommand
  | reset
  | execute (requested : Nat)
  | getWord (r : WordReg)
  | setWord (r : WordReg) (v : Addr)
  | getByte (r : Reg)
  | setByte (r : Reg) (v : Byte)
  | getFlag (f : FlagName)
  | setFlag (f : FlagName) (v : Bool)
  | memRead (addr : Addr)
  | memWrite (addr : Addr) (v : Byte)
  deriving DecidableEq, Repr

/-- What a command returns. -/
inductive HostReply
  | done
  | cycles (used : Int) (outcome : ExecuteOutcome)
  | word (v : Addr)
  | byte (v : Byte)
  | flag (v : Bool)
  deriving DecidableEq, Repr

/-- One host command (R5): its reply and the state it leaves. No command but `execute` and `reset` touches
`status` (R29). -/
def hostCommand (k : HostCommand) (s : State) : HostReply × State :=
  match k with
  | .reset          => (.done, hostReset s)
  | .execute n      => (.cycles (hostExecute n s).used (hostExecute n s).outcome, (hostExecute n s).state)
  | .getWord r      => (.word (getWordReg r s), s)
  | .setWord r v    => (.done, setWordReg r v s)
  | .getByte r      => (.byte (getReg r s), s)
  | .setByte r v    => (.done, setReg r v s)
  | .getFlag f      => (.flag (Machine.getFlag f s), s)
  | .setFlag f v    => (.done, Machine.setFlag f v s)
  | .memRead addr   => (.byte (Machine.memRead s addr), s)
  | .memWrite addr v => (.done, Machine.memWrite addr v s)

end Sys2Proof.Machine
end

