-- ==== Sys2Proof/Machine/Reference.lean ====
section
/-! DEFINITION. The loop body of spec/41_dispatch.md R76 word for word: it decodes the opcode byte alone, and
fetches the operand bytes only inside the operation, as R62, R84, R104 and R119 write it. Nothing
runs on it; that `step` agrees with it is one of the package's statements. Assumption log 3. -/
namespace Sys2Proof.Machine

/-- The operand bytes of a mode fetched at PC with FetchByte and FetchWord (R62, R66 to R73). Immediate is not
resolved (R65): `none`. -/
def fetchOperand (m : Mode) (s : State) : Except Fault (Option Operand × State) :=
  match m with
  | .immediate => pure (none, s)
  | .zeroPage  => do let (b, s) ← fetchByte s; pure (some (.zeroPage b), s)
  | .zeroPageX => do let (b, s) ← fetchByte s; pure (some (.zeroPageX b), s)
  | .zeroPageY => do let (b, s) ← fetchByte s; pure (some (.zeroPageY b), s)
  | .absolute  => do let (w, s) ← fetchWord s; pure (some (.absolute w), s)
  | .absoluteX => do let (w, s) ← fetchWord s; pure (some (.absoluteX w), s)
  | .absoluteY => do let (w, s) ← fetchWord s; pure (some (.absoluteY w), s)
  | .indirectX => do let (b, s) ← fetchByte s; pure (some (.indirectX b), s)
  | .indirectY => do let (b, s) ← fetchByte s; pure (some (.indirectY b), s)

/-- `Load(r, mode)` of R84, the opcode already fetched. -/
def referenceLoad (r : Reg) (m : Mode) (s : State) : Except Fault State := do
  let (o, s) ← fetchOperand m s
  match o with
  | none => do
    let (v, s) ← fetchByte s
    pure (setZN v (setReg r v s))
  | some o => do
    let (ea, s) ← resolve o .load s
    let (v, s) := readByte ea s
    pure (setZN v (setReg r v s))

/-- `Store(r, mode)` of R104, the opcode already fetched. No store has the Immediate mode (R105). -/
def referenceStore (r : Reg) (m : Mode) (s : State) : Except Fault State := do
  let (o, s) ← fetchOperand m s
  match o with
  | none => pure s
  | some o => do
    let (ea, s) ← resolve o .store s
    let s := writeByte ea (getReg r s) s
    pure (chargeIf (storeFixup s.params o) s)

/-- JSR of R119, the opcode already fetched. -/
def referenceJsr (s : State) : Except Fault State := do
  let (target, s) ← fetchWord s
  let ret := s.pc - 1
  let slot := stackSlot s.sp
  let s ← writeWord slot ret s
  pure (charge 1 { s with sp := Config.jsrSpNext s.sp, pc := target })

/-- `Step(kind, mode, op, addr)` of R79. -/
def referenceStep (entry : Option (OpKind × Mode)) (op : Byte) (addr : Addr) (s : State) :
    Except Fault State :=
  match entry with
  | some (.loadA, m)  => referenceLoad .a m s
  | some (.loadX, m)  => referenceLoad .x m s
  | some (.loadY, m)  => referenceLoad .y m s
  | some (.storeA, m) => referenceStore .a m s
  | some (.storeX, m) => referenceStore .x m s
  | some (.storeY, m) => referenceStore .y m s
  | some (.jumpToSubroutine, _) => referenceJsr s
  | none => pure (raiseInvalidOpcode op addr s)

/-- The loop body of R76 on a running core. -/
def referenceLoopBody (s : State) : Except Fault State := do
  let addr := s.pc
  let (op, s) ← fetchByte s
  referenceStep (opcodeMap op) op addr s

end Sys2Proof.Machine
end

