-- ==== Sys2Proof/Safety.lean ====
section
/-! DEFINITION. The terms the claims are stated in: when a fetch or an index sum raises nothing, what a state a
run can reach looks like, and the next states the instruction rules of spec/42_load.md,
spec/43_store.md, spec/44_jsr.md and spec/45_unhandled.md describe. -/
namespace Sys2Proof.Machine

/-- Fetching `len` bytes from PC on raises no AddressOverflow: no byte of the instruction is at 0xFFFF, or
WRAP16 = Wrap (R19, R36). -/
def CanFetch (len : Nat) (s : State) : Prop :=
  s.pc.toNat + len ≤ 0xFFFF ∨ s.params.wrap16 = .wrap

/-- Adding an index to a base address raises no AddressOverflow (R36, R70, R71, R73). -/
def CanIndex (base : Addr) (idx : Byte) (s : State) : Prop :=
  base.toNat + idx.toNat ≤ 0xFFFF ∨ s.params.wrap16 = .wrap

/-- The core runs (R29). -/
def Running (s : State) : Prop := s.status = .running

/-- A step that stops at nothing. -/
def SafeStep (s : State) : Prop := ∃ t, step s = .next t

/-- The invariant of every run: memory is in canonical form, and only Unhandled bytes have been reported
(R125). -/
def StateInv (s : State) : Prop :=
  Memory.wf s.mem = true ∧ ∀ e ∈ s.diag, isUnhandledByte e.opcode = true

/-- `s` after an instruction of `len` bytes and `cycles` cycles that does nothing else. -/
def passed (len cycles : Nat) (s : State) : State :=
  { s with pc := s.pc + BitVec.ofNat 16 len, remaining := s.remaining - cycles }

/-- `s` after a load of `v` into `r` by an instruction of `len` bytes and `cycles` cycles (R84): r, Z, N,
PC and the cycle counter, nothing else. -/
def loaded (r : Reg) (v : Byte) (len cycles : Nat) (s : State) : State :=
  setReg r v { passed len cycles s with z := decide (v = 0x00), n := v.getLsbD 7 }

/-- `t` is `s` after a store of `v` at `ea` by an instruction of `len` bytes and `cycles` cycles (R104): the
byte at `ea` reads as `v`, every other byte as before, and beside memory only PC and the cycle
counter have changed. -/
def Stored (ea : Addr) (v : Byte) (len cycles : Nat) (s t : State) : Prop :=
  memRead t ea = v ∧ (∀ addr, addr ≠ ea → memRead t addr = memRead s addr) ∧
    t = { passed len cycles s with mem := t.mem }

/-- The pointer word whose low byte is at zero-page address `p` (R64). -/
def zpPointer (p : Byte) (s : State) : Addr :=
  match s.params.zpPtrHi with
  | .linear   => wordOf (memRead s (zext16 p + 1)) (memRead s (zext16 p))
  | .zeroPage => wordOf (memRead s (zext16 (p + 1))) (memRead s (zext16 p))

/-- The extra cycle of a page cross from `base` to `base + idx` (R63). -/
def crossCycle (base : Addr) (idx : Byte) (s : State) : Nat :=
  if pageCross s.params base (base + zext16 idx) then 1 else 0

/-- The register a load-family instruction loads (R84). -/
def loadTarget (i : Instr) : Option Reg :=
  match i.pair with
  | some (.loadA, _) => some .a
  | some (.loadX, _) => some .x
  | some (.loadY, _) => some .y
  | some (.storeA, _) | some (.storeX, _) | some (.storeY, _) | some (.jumpToSubroutine, _) | none => none

/-- The register a store-family instruction stores (R104). -/
def storeSource (i : Instr) : Option Reg :=
  match i.pair with
  | some (.storeA, _) => some .a
  | some (.storeX, _) => some .x
  | some (.storeY, _) => some .y
  | some (.loadA, _) | some (.loadX, _) | some (.loadY, _) | some (.jumpToSubroutine, _) | none => none

/-- The instruction is a JSR (R119). -/
def isCall (i : Instr) : Prop := ∃ target, i = .jsr target

/-- The instruction is an Unhandled byte (R122). -/
def isReport (i : Instr) : Prop := ∃ op, i = .unhandled op

/-- The cycle table of spec/70_reset_and_hazards.md R146, the "+1 on cross" column included. -/
def tableCycles (i : Instr) (s : State) : Nat :=
  match i with
  | .ldaImm _  => 2
  | .ldaZp _   => 3
  | .ldaZpX _  => 4
  | .ldaAbs _  => 4
  | .ldaAbsX w => 4 + crossCycle w s.x s
  | .ldaAbsY w => 4 + crossCycle w s.y s
  | .ldaIndX _ => 6
  | .ldaIndY b => 5 + crossCycle (zpPointer b s) s.y s
  | .ldxImm _  => 2
  | .ldxZp _   => 3
  | .ldxZpY _  => 4
  | .ldxAbs _  => 4
  | .ldxAbsY w => 4 + crossCycle w s.y s
  | .ldyImm _  => 2
  | .ldyZp _   => 3
  | .ldyZpX _  => 4
  | .ldyAbs _  => 4
  | .ldyAbsX w => 4 + crossCycle w s.x s
  | .staZp _   => 3
  | .staZpX _  => 4
  | .staAbs _  => 4
  | .staAbsX _ => 5
  | .staAbsY _ => 5
  | .staIndX _ => 6
  | .staIndY b =>
    match s.params.storeIndyFixup with
    | .always      => 6
    | .conditional => 5 + crossCycle (zpPointer b s) s.y s
  | .stxZp _   => 3
  | .stxZpY _  => 4
  | .stxAbs _  => 4
  | .styZp _   => 3
  | .styZpX _  => 4
  | .styAbs _  => 4
  | .jsr _     => 6
  | .unhandled _ => 1

/-- The two states agree in everything but the flags and the reserved bit. -/
def SameButFlags (s t : State) : Prop :=
  t = { s with
    c := t.c, z := t.z, i := t.i, d := t.d, b := t.b, v := t.v, n := t.n, reserved := t.reserved }

end Sys2Proof.Machine
end

