-- ==== Sys2Proof/Certificates/Slice0/Obligations.lean ====
section
/-! DEFINITION. The statements for the provers. Each docstring names the rule of spec/ it formalises; a premise
`s.mem.wf = true` is the memory part of the invariant that O3 states. -/

open Sys2Proof Sys2Proof.Machine

/-! ## Reset and the invariant -/

/-- R139: the state any state is reset to. The counter's clause is "It takes no cycle". -/
def Obligations.ResetLeavesSpecState : Prop :=
  ∀ s : State,
    let t := (hostCommand .reset s).2
    t.pc = s.params.resetPc ∧ t.sp = 0x0100 ∧ t.a = 0x00 ∧ t.x = 0x00 ∧ t.y = 0x00 ∧
    (∀ f, getFlag f t = false) ∧ (∀ addr, memRead t addr = 0x00) ∧ t.status = .running ∧
    t.diag = s.diag ∧ t.remaining = s.remaining ∧ t.params = s.params ∧
    State.reset.params.resetPc = 0xFFFC

/-- The invariant at reset: the model's canonical memory form and R125 (only Unhandled bytes reported). That
`State.reset` is its own reset rests on the model's values of the fields R30 gives none (assumption log 5, 8, 9
and 10). -/
def Obligations.ResetMeetsInvariant : Prop :=
  StateInv State.reset ∧ hostReset State.reset = State.reset ∧ ∀ s, StateInv s → StateInv (hostReset s)

/-- Every step keeps the memory's canonical form, and reports Unhandled bytes only (R125, R58). -/
def Obligations.StepKeepsInvariant : Prop :=
  ∀ s t : State, StateInv s → step s = .next t → StateInv t

/-- Every host command keeps the invariant, `execute` of any budget and an AddressOverflow on the way
included (R5, R126). The memory clause is about the model's own canonical form (assumption log 18), also for the
free memory after an AddressOverflow, which the model takes in that form (assumption log 8); that only Unhandled
bytes are reported is R125. -/
def Obligations.HostCommandKeepsInvariant : Prop :=
  ∀ (k : HostCommand) (s : State), StateInv s → StateInv (hostCommand k s).2

/-! ## Encoding and fetching -/

/-- Decode undoes encode, whatever bytes follow (R52, R53, R54, R56, R58). -/
def Obligations.DecodeOfEncodeIsInstruction : Prop :=
  ∀ (i : Instr) (rest : List Byte), WellFormed i = true → decode (encode i ++ rest) = .ok (i, rest)

/-- Encode undoes decode: the bytes of an instruction have one meaning (R55, R57). -/
def Obligations.EncodeOfDecodeIsBytes : Prop :=
  ∀ (bytes rest : List Byte) (i : Instr), decode bytes = .ok (i, rest) →
    WellFormed i = true ∧ encode i ++ rest = bytes

/-- Decoding is total on the 256 byte values, and a byte decodes to Unhandled exactly when R58 lists it
(R55, R58). -/
def Obligations.EveryOpcodeByteDecodes : Prop :=
  (∀ op lo hi : Byte, ∃ i rest, decode [op, lo, hi] = .ok (i, rest) ∧ i.length + rest.length = 3 ∧
    (isReport i ↔ isUnhandledByte op = true)) ∧
  ∀ op : Byte, opcodeMap op = none ↔ isUnhandledByte op = true

/-- Words written out from R56 and R60 decode to the instructions they stand for. -/
def Obligations.WrittenBytesDecode : Prop :=
  decode [0xA9, 0x84] = .ok (.ldaImm 0x84, []) ∧
  decode [0xB6, 0x80] = .ok (.ldxZpY 0x80, []) ∧
  decode [0xBC, 0x34, 0x12] = .ok (.ldyAbsX 0x1234, []) ∧
  decode [0x8D, 0x80, 0x44] = .ok (.staAbs 0x4480, []) ∧
  decode [0x96, 0x80] = .ok (.stxZpY 0x80, []) ∧
  decode [0x84, 0x42] = .ok (.styZp 0x42, []) ∧
  decode [0x20, 0x00, 0x40] = .ok (.jsr 0x4000, []) ∧
  decode [0x60, 0xA9] = .ok (.unhandled 0x60, [0xA9])

/-- A step of a running core is `exec` of the instruction its bytes at PC decode to; `exec` itself moves PC
past the bytes and charges their fetches. -/
def Obligations.StepRunsDecodedInstruction : Prop :=
  ∀ (s : State) (i : Instr) (rest : List Byte),
    Running s → decode (instrBytes s) = .ok (i, rest) → step s = exec i s

/-- On a running core `step` is the loop body of R76 as the rules write it: opcode fetch, Decode of the opcode
byte alone, operand fetches inside the operation (R62, R76, R79, R84, R104, R119, R122). -/
def Obligations.StepIsSpecLoopBody : Prop :=
  ∀ s : State, Running s → step s = finish (referenceLoopBody s)

/-- The host's placing of an instruction at PC makes the next step run it (assumption log 15). -/
def Obligations.PlacedInstructionRunsNext : Prop :=
  ∀ (s : State) (nbits w : Nat) (i : Instr), Running s → s.mem.wf = true →
    decodeTableWord nbits w = some i →
    step (s.withFetchWord nbits w) = exec i (s.withFetchWord nbits w)

/-! ## Shared operations -/

/-- `add16` of R36, for the amounts the block adds. -/
def Obligations.Add16FollowsWrapParameter : Prop :=
  ∀ (p : Params) (a : Addr) (b : Nat), b ≤ 0xFF →
    (a.toNat + b ≤ 0xFFFF → ∃ r, add16 p a b = .ok r ∧ r.toNat = a.toNat + b) ∧
    (0xFFFF < a.toNat + b →
      (p.wrap16 = .fault → add16 p a b = .error (.addressOverflow a b)) ∧
      (p.wrap16 = .wrap → ∃ r, add16 p a b = .ok r ∧ r.toNat = a.toNat + b - 0x10000))

/-- The two page-cross tests of R63: under IndexFF the test is that the index is 0xFF. -/
def Obligations.PageCrossFollowsTestParameter : Prop :=
  ∀ (p : Params) (base : Addr) (idx : Byte),
    (p.pageCrossTest = .highByte →
      (pageCross p base (base + zext16 idx) = true ↔ hi8 (base + zext16 idx) ≠ hi8 base)) ∧
    (p.pageCrossTest = .indexFF →
      (pageCross p base (base + zext16 idx) = true ↔ idx = 0xFF))

/-- The zero-page pointer read of R64: 2 cycles, the high byte at p + 1 or at (p + 1) & 0xFF. -/
def Obligations.ZeroPagePointerRead : Prop :=
  ∀ (p : Byte) (s : State),
    (s.params.zpPtrHi = .linear → readZpPtr p s =
      .ok (wordOf (memRead s (zext16 p + 1)) (memRead s (zext16 p)),
        { s with remaining := s.remaining - 2 })) ∧
    (s.params.zpPtrHi = .zeroPage → readZpPtr p s =
      .ok (wordOf (memRead s (zext16 (p + 1))) (memRead s (zext16 p)),
        { s with remaining := s.remaining - 2 }))

/-- A word is stored low byte first and read back (R40, R42, R43); no byte beside the two changes. -/
def Obligations.WordsAreLittleEndian : Prop :=
  ∀ (s : State) (addr w : Addr), s.mem.wf = true → addr.toNat + 1 ≤ 0xFFFF →
    ∃ t, writeWord addr w s = .ok t ∧ memRead t addr = lo8 w ∧ memRead t (addr + 1) = hi8 w ∧
      (∀ other, other ≠ addr → other ≠ addr + 1 → memRead t other = memRead s other) ∧
      readWord addr t = .ok (w, { t with remaining := t.remaining - 2 })

/-! ## Loads -/

/-- R86, R94, R99: the Immediate loads. -/
def Obligations.ImmediateLoads : Prop :=
  ∀ (s : State) (v : Byte),
    (CanFetch 2 s →
      exec (.ldaImm v) s = .next (loaded .a v 2 2 s) ∧
      exec (.ldxImm v) s = .next (loaded .x v 2 2 s) ∧
      exec (.ldyImm v) s = .next (loaded .y v 2 2 s)) ∧
    (¬ CanFetch 2 s →
      exec (.ldaImm v) s = .fault (.addressOverflow 0xFFFF 1) ∧
      exec (.ldxImm v) s = .fault (.addressOverflow 0xFFFF 1) ∧
      exec (.ldyImm v) s = .fault (.addressOverflow 0xFFFF 1)) ∧
    encode (.ldaImm v) = [0xA9, v] ∧ encode (.ldxImm v) = [0xA2, v] ∧ encode (.ldyImm v) = [0xA0, v]

/-- R87, R95, R100: the ZeroPage loads. -/
def Obligations.ZeroPageLoads : Prop :=
  ∀ (s : State) (b : Byte),
    (CanFetch 2 s →
      exec (.ldaZp b) s = .next (loaded .a (memRead s (zext16 b)) 2 3 s) ∧
      exec (.ldxZp b) s = .next (loaded .x (memRead s (zext16 b)) 2 3 s) ∧
      exec (.ldyZp b) s = .next (loaded .y (memRead s (zext16 b)) 2 3 s)) ∧
    (¬ CanFetch 2 s →
      exec (.ldaZp b) s = .fault (.addressOverflow 0xFFFF 1) ∧
      exec (.ldxZp b) s = .fault (.addressOverflow 0xFFFF 1) ∧
      exec (.ldyZp b) s = .fault (.addressOverflow 0xFFFF 1)) ∧
    encode (.ldaZp b) = [0xA5, b] ∧ encode (.ldxZp b) = [0xA6, b] ∧ encode (.ldyZp b) = [0xA4, b]

/-- R88, R96, R101: the ZeroPageX and ZeroPageY loads; the 8-bit sum wraps inside the zero page. -/
def Obligations.ZeroPageIndexedLoads : Prop :=
  ∀ (s : State) (b : Byte),
    (CanFetch 2 s →
      exec (.ldaZpX b) s = .next (loaded .a (memRead s (zext16 (b + s.x))) 2 4 s) ∧
      exec (.ldxZpY b) s = .next (loaded .x (memRead s (zext16 (b + s.y))) 2 4 s) ∧
      exec (.ldyZpX b) s = .next (loaded .y (memRead s (zext16 (b + s.x))) 2 4 s)) ∧
    (¬ CanFetch 2 s →
      exec (.ldaZpX b) s = .fault (.addressOverflow 0xFFFF 1) ∧
      exec (.ldxZpY b) s = .fault (.addressOverflow 0xFFFF 1) ∧
      exec (.ldyZpX b) s = .fault (.addressOverflow 0xFFFF 1)) ∧
    encode (.ldaZpX b) = [0xB5, b] ∧ encode (.ldxZpY b) = [0xB6, b] ∧ encode (.ldyZpX b) = [0xB4, b]

/-- R89, R97, R102: the Absolute loads. -/
def Obligations.AbsoluteLoads : Prop :=
  ∀ (s : State) (w : Addr),
    (CanFetch 3 s →
      exec (.ldaAbs w) s = .next (loaded .a (memRead s w) 3 4 s) ∧
      exec (.ldxAbs w) s = .next (loaded .x (memRead s w) 3 4 s) ∧
      exec (.ldyAbs w) s = .next (loaded .y (memRead s w) 3 4 s)) ∧
    (¬ CanFetch 3 s →
      exec (.ldaAbs w) s = .fault (.addressOverflow 0xFFFF 1) ∧
      exec (.ldxAbs w) s = .fault (.addressOverflow 0xFFFF 1) ∧
      exec (.ldyAbs w) s = .fault (.addressOverflow 0xFFFF 1)) ∧
    encode (.ldaAbs w) = [0xAD, lo8 w, hi8 w] ∧ encode (.ldxAbs w) = [0xAE, lo8 w, hi8 w] ∧
    encode (.ldyAbs w) = [0xAC, lo8 w, hi8 w]

/-- R90, R91, R98, R103: the AbsoluteX and AbsoluteY loads; the sum is not masked, and a page cross costs one
cycle more. -/
def Obligations.AbsoluteIndexedLoads : Prop :=
  ∀ (s : State) (w : Addr),
    (CanFetch 3 s → CanIndex w s.x s →
      exec (.ldaAbsX w) s =
        .next (loaded .a (memRead s (w + zext16 s.x)) 3 (4 + crossCycle w s.x s) s) ∧
      exec (.ldyAbsX w) s =
        .next (loaded .y (memRead s (w + zext16 s.x)) 3 (4 + crossCycle w s.x s) s)) ∧
    (CanFetch 3 s → CanIndex w s.y s →
      exec (.ldaAbsY w) s =
        .next (loaded .a (memRead s (w + zext16 s.y)) 3 (4 + crossCycle w s.y s) s) ∧
      exec (.ldxAbsY w) s =
        .next (loaded .x (memRead s (w + zext16 s.y)) 3 (4 + crossCycle w s.y s) s)) ∧
    (CanFetch 3 s → ¬ CanIndex w s.x s →
      exec (.ldaAbsX w) s = .fault (.addressOverflow w s.x.toNat) ∧
      exec (.ldyAbsX w) s = .fault (.addressOverflow w s.x.toNat)) ∧
    (CanFetch 3 s → ¬ CanIndex w s.y s →
      exec (.ldaAbsY w) s = .fault (.addressOverflow w s.y.toNat) ∧
      exec (.ldxAbsY w) s = .fault (.addressOverflow w s.y.toNat)) ∧
    (¬ CanFetch 3 s →
      exec (.ldaAbsX w) s = .fault (.addressOverflow 0xFFFF 1) ∧
      exec (.ldaAbsY w) s = .fault (.addressOverflow 0xFFFF 1) ∧
      exec (.ldxAbsY w) s = .fault (.addressOverflow 0xFFFF 1) ∧
      exec (.ldyAbsX w) s = .fault (.addressOverflow 0xFFFF 1)) ∧
    encode (.ldaAbsX w) = [0xBD, lo8 w, hi8 w] ∧ encode (.ldaAbsY w) = [0xB9, lo8 w, hi8 w] ∧
    encode (.ldxAbsY w) = [0xBE, lo8 w, hi8 w] ∧ encode (.ldyAbsX w) = [0xBC, lo8 w, hi8 w]

/-- R92: LDA IndirectX. -/
def Obligations.IndirectXLoad : Prop :=
  ∀ (s : State) (b : Byte),
    (CanFetch 2 s →
      exec (.ldaIndX b) s = .next (loaded .a (memRead s (zpPointer (b + s.x) s)) 2 6 s)) ∧
    (¬ CanFetch 2 s → exec (.ldaIndX b) s = .fault (.addressOverflow 0xFFFF 1)) ∧
    encode (.ldaIndX b) = [0xA1, b]

/-- R93: LDA IndirectY. -/
def Obligations.IndirectYLoad : Prop :=
  ∀ (s : State) (b : Byte),
    (CanFetch 2 s → CanIndex (zpPointer b s) s.y s →
      exec (.ldaIndY b) s =
        .next (loaded .a (memRead s (zpPointer b s + zext16 s.y)) 2
          (5 + crossCycle (zpPointer b s) s.y s) s)) ∧
    (CanFetch 2 s → ¬ CanIndex (zpPointer b s) s.y s →
      exec (.ldaIndY b) s = .fault (.addressOverflow (zpPointer b s) s.y.toNat)) ∧
    (¬ CanFetch 2 s → exec (.ldaIndY b) s = .fault (.addressOverflow 0xFFFF 1)) ∧
    encode (.ldaIndY b) = [0xB1, b]

/-! ## Stores -/

/-- R106, R113, R116: the ZeroPage stores. -/
def Obligations.ZeroPageStores : Prop :=
  ∀ (s : State) (b : Byte),
    (s.mem.wf = true → CanFetch 2 s →
      (∃ t, exec (.staZp b) s = .next t ∧ Stored (zext16 b) s.a 2 3 s t) ∧
      (∃ t, exec (.stxZp b) s = .next t ∧ Stored (zext16 b) s.x 2 3 s t) ∧
      (∃ t, exec (.styZp b) s = .next t ∧ Stored (zext16 b) s.y 2 3 s t)) ∧
    (¬ CanFetch 2 s →
      exec (.staZp b) s = .fault (.addressOverflow 0xFFFF 1) ∧
      exec (.stxZp b) s = .fault (.addressOverflow 0xFFFF 1) ∧
      exec (.styZp b) s = .fault (.addressOverflow 0xFFFF 1)) ∧
    encode (.staZp b) = [0x85, b] ∧ encode (.stxZp b) = [0x86, b] ∧ encode (.styZp b) = [0x84, b]

/-- R107, R114, R117: the ZeroPageX and ZeroPageY stores. -/
def Obligations.ZeroPageIndexedStores : Prop :=
  ∀ (s : State) (b : Byte),
    (s.mem.wf = true → CanFetch 2 s →
      (∃ t, exec (.staZpX b) s = .next t ∧ Stored (zext16 (b + s.x)) s.a 2 4 s t) ∧
      (∃ t, exec (.stxZpY b) s = .next t ∧ Stored (zext16 (b + s.y)) s.x 2 4 s t) ∧
      (∃ t, exec (.styZpX b) s = .next t ∧ Stored (zext16 (b + s.x)) s.y 2 4 s t)) ∧
    (¬ CanFetch 2 s →
      exec (.staZpX b) s = .fault (.addressOverflow 0xFFFF 1) ∧
      exec (.stxZpY b) s = .fault (.addressOverflow 0xFFFF 1) ∧
      exec (.styZpX b) s = .fault (.addressOverflow 0xFFFF 1)) ∧
    encode (.staZpX b) = [0x95, b] ∧ encode (.stxZpY b) = [0x96, b] ∧ encode (.styZpX b) = [0x94, b]

/-- R108, R115, R118: the Absolute stores. -/
def Obligations.AbsoluteStores : Prop :=
  ∀ (s : State) (w : Addr),
    (s.mem.wf = true → CanFetch 3 s →
      (∃ t, exec (.staAbs w) s = .next t ∧ Stored w s.a 3 4 s t) ∧
      (∃ t, exec (.stxAbs w) s = .next t ∧ Stored w s.x 3 4 s t) ∧
      (∃ t, exec (.styAbs w) s = .next t ∧ Stored w s.y 3 4 s t)) ∧
    (¬ CanFetch 3 s →
      exec (.staAbs w) s = .fault (.addressOverflow 0xFFFF 1) ∧
      exec (.stxAbs w) s = .fault (.addressOverflow 0xFFFF 1) ∧
      exec (.styAbs w) s = .fault (.addressOverflow 0xFFFF 1)) ∧
    encode (.staAbs w) = [0x8D, lo8 w, hi8 w] ∧ encode (.stxAbs w) = [0x8E, lo8 w, hi8 w] ∧
    encode (.styAbs w) = [0x8C, lo8 w, hi8 w]

/-- R109, R110: the AbsoluteX and AbsoluteY stores cost 5, page cross or not. -/
def Obligations.AbsoluteIndexedStores : Prop :=
  ∀ (s : State) (w : Addr),
    (s.mem.wf = true → CanFetch 3 s → CanIndex w s.x s →
      ∃ t, exec (.staAbsX w) s = .next t ∧ Stored (w + zext16 s.x) s.a 3 5 s t) ∧
    (s.mem.wf = true → CanFetch 3 s → CanIndex w s.y s →
      ∃ t, exec (.staAbsY w) s = .next t ∧ Stored (w + zext16 s.y) s.a 3 5 s t) ∧
    (CanFetch 3 s → ¬ CanIndex w s.x s →
      exec (.staAbsX w) s = .fault (.addressOverflow w s.x.toNat)) ∧
    (CanFetch 3 s → ¬ CanIndex w s.y s →
      exec (.staAbsY w) s = .fault (.addressOverflow w s.y.toNat)) ∧
    (¬ CanFetch 3 s →
      exec (.staAbsX w) s = .fault (.addressOverflow 0xFFFF 1) ∧
      exec (.staAbsY w) s = .fault (.addressOverflow 0xFFFF 1)) ∧
    encode (.staAbsX w) = [0x9D, lo8 w, hi8 w] ∧ encode (.staAbsY w) = [0x99, lo8 w, hi8 w]

/-- R111: STA IndirectX. -/
def Obligations.IndirectXStore : Prop :=
  ∀ (s : State) (b : Byte),
    (s.mem.wf = true → CanFetch 2 s →
      ∃ t, exec (.staIndX b) s = .next t ∧ Stored (zpPointer (b + s.x) s) s.a 2 6 s t) ∧
    (¬ CanFetch 2 s → exec (.staIndX b) s = .fault (.addressOverflow 0xFFFF 1)) ∧
    encode (.staIndX b) = [0x81, b]

/-- R112: STA IndirectY, under both values of STORE_INDY_FIXUP. -/
def Obligations.IndirectYStore : Prop :=
  ∀ (s : State) (b : Byte),
    (s.mem.wf = true → CanFetch 2 s → CanIndex (zpPointer b s) s.y s →
      (s.params.storeIndyFixup = .always →
        ∃ t, exec (.staIndY b) s = .next t ∧
          Stored (zpPointer b s + zext16 s.y) s.a 2 6 s t) ∧
      (s.params.storeIndyFixup = .conditional →
        ∃ t, exec (.staIndY b) s = .next t ∧
          Stored (zpPointer b s + zext16 s.y) s.a 2 (5 + crossCycle (zpPointer b s) s.y s) s t)) ∧
    (CanFetch 2 s → ¬ CanIndex (zpPointer b s) s.y s →
      exec (.staIndY b) s = .fault (.addressOverflow (zpPointer b s) s.y.toNat)) ∧
    (¬ CanFetch 2 s → exec (.staIndY b) s = .fault (.addressOverflow 0xFFFF 1)) ∧
    encode (.staIndY b) = [0x91, b]

/-- Storing a register and loading it back from the same address gives its value; the store leaves every flag
(R105, 95_test_vectors.md W7). -/
def Obligations.StoreThenLoadReturnsValue : Prop :=
  ∀ (s t u : State) (w : Addr), s.mem.wf = true →
    (exec (.staAbs w) s = .next t → exec (.ldaAbs w) t = .next u →
      u.a = s.a ∧ (∀ f, getFlag f t = getFlag f s) ∧ u.z = decide (s.a = 0) ∧ u.n = s.a.getLsbD 7) ∧
    (exec (.stxAbs w) s = .next t → exec (.ldxAbs w) t = .next u →
      u.x = s.x ∧ (∀ f, getFlag f t = getFlag f s) ∧ u.z = decide (s.x = 0) ∧ u.n = s.x.getLsbD 7) ∧
    (exec (.styAbs w) s = .next t → exec (.ldyAbs w) t = .next u →
      u.y = s.y ∧ (∀ f, getFlag f t = getFlag f s) ∧ u.z = decide (s.y = 0) ∧ u.n = s.y.getLsbD 7)

/-- A store into the bytes that follow it is seen by the next fetch (R50, R143). -/
def Obligations.NextFetchSeesStore : Prop :=
  ∀ (s t : State) (k : Nat), s.mem.wf = true → k < 3 →
    exec (.staAbs (s.pc + 3 + BitVec.ofNat 16 k)) s = .next t → (instrBytes t)[k]? = some s.a

/-! ## JSR -/

/-- R119 with R120: the return word PC − 1 at `0x0100 | SP[7:0]`, low byte first, PC at the target, SP through
the OPEN parameter, 6 cycles, and no other register, flag or byte changed. -/
def Obligations.SubroutineCall : Prop :=
  ∀ (s : State) (target : Addr),
    let slot : Addr := 0x0100 ||| (s.sp &&& 0x00FF)
    (s.mem.wf = true → CanFetch 3 s →
      ∃ t, exec (.jsr target) s = .next t ∧
        memRead t slot = lo8 (s.pc + 2) ∧ memRead t (slot + 1) = hi8 (s.pc + 2) ∧
        (∀ addr, addr ≠ slot → addr ≠ slot + 1 → memRead t addr = memRead s addr) ∧
        t = { s with
          pc := target, sp := Config.jsrSpNext s.sp, remaining := s.remaining - 6, mem := t.mem }) ∧
    (¬ CanFetch 3 s → exec (.jsr target) s = .fault (.addressOverflow 0xFFFF 1)) ∧
    encode (.jsr target) = [0x20, lo8 target, hi8 target]

/-! ## Unhandled opcodes -/

/-- The instruction side of R122: the report, PC + 1, one cycle, nothing else; at 0xFFFF under WRAP16 = Fault
the fault comes first and nothing is reported (R127). -/
def Obligations.UnhandledIsReported : Prop :=
  ∀ (s : State) (op : Byte), isUnhandledByte op = true →
    (CanFetch 1 s →
      exec (.unhandled op) s = .next { s with
        pc := s.pc + 1, remaining := s.remaining - 1, diag := s.diag ++ [⟨op, s.pc⟩] }) ∧
    (¬ CanFetch 1 s → exec (.unhandled op) s = .fault (.addressOverflow 0xFFFF 1)) ∧
    decode [op] = .ok (.unhandled op, [])

/-- R125 seen from `execute`: under Halt it returns right after the report with the cycle used; under
ReportAndContinue the loop goes on with the next byte. A faulting call, whose count is free, is told by its
outcome (assumption log 8 and 23). -/
def Obligations.IllegalPolicyDecidesAfterReport : Prop :=
  ∀ (s : State) (k : Nat), Running s → CanFetch 1 s → isUnhandledByte (memRead s s.pc) = true →
    let t : State := { s with pc := s.pc + 1, diag := s.diag ++ [⟨memRead s s.pc, s.pc⟩] }
    (s.params.illegalPolicy = .halt →
      hostExecute (k + 1) s = ⟨1, .invalidOpcode (memRead s s.pc) s.pc, t⟩) ∧
    (s.params.illegalPolicy = .reportAndContinue →
      (hostExecute (k + 1) s).outcome = (hostExecute k t).outcome ∧
      (hostExecute (k + 1) s).state = (hostExecute k t).state ∧
      ((hostExecute k t).outcome ≠ .faulted → (hostExecute (k + 1) s).used = 1 + (hostExecute k t).used))

/-! ## Frames over every instruction -/

/-- R83 and R22: Z and N follow the value a load has put in its register and nothing else writes them; C, I, D,
B and V are written by no instruction. -/
def Obligations.OnlyLoadsWriteZeroNegative : Prop :=
  ∀ (i : Instr) (s t : State), exec i s = .next t →
    (∀ r, loadTarget i = some r → t.z = decide (getReg r t = 0x00) ∧ t.n = (getReg r t).getLsbD 7) ∧
    (loadTarget i = none → t.z = s.z ∧ t.n = s.n) ∧
    t.c = s.c ∧ t.i = s.i ∧ t.d = s.d ∧ t.b = s.b ∧ t.v = s.v

/-- R15, R16, R17, R21: A, X and Y are written by their own loads only, SP by JSR only. -/
def Obligations.RegistersWrittenByTheirOwnersOnly : Prop :=
  ∀ (i : Instr) (s t : State), exec i s = .next t →
    (∀ r, loadTarget i ≠ some r → getReg r t = getReg r s) ∧
    (¬ isCall i → t.sp = s.sp) ∧ (isCall i → t.sp = Config.jsrSpNext s.sp)

/-- R84, R119, R122: an instruction that is neither a store nor JSR changes no byte of memory. -/
def Obligations.OnlyStoresAndCallsWriteMemory : Prop :=
  ∀ (i : Instr) (s t : State), exec i s = .next t → storeSource i = none → ¬ isCall i →
    ∀ addr, memRead t addr = memRead s addr

/-- R18, R19, R37: PC after each instruction, and the one fetch that moves it. -/
def Obligations.ProgramCounterAfterInstruction : Prop :=
  (∀ s : State, CanFetch 1 s →
    fetchByte s = .ok (memRead s s.pc, { s with pc := s.pc + 1, remaining := s.remaining - 1 })) ∧
  (∀ s : State, ¬ CanFetch 1 s → fetchByte s = .error (.addressOverflow 0xFFFF 1)) ∧
  ∀ (i : Instr) (s t : State), exec i s = .next t →
    (∀ target, i = .jsr target → t.pc = target) ∧
    (¬ isCall i → t.pc = s.pc + BitVec.ofNat 16 i.length)

/-- R29, R27, R24: no instruction changes the run status, the parameters, the reserved bit or the fault
counter, and only an Unhandled opcode adds to `diag`. The last two fields are the model's own
(assumption log 8 and 9). -/
def Obligations.InstructionsKeepRunState : Prop :=
  ∀ (i : Instr) (s t : State), exec i s = .next t →
    t.status = s.status ∧ t.params = s.params ∧ t.reserved = s.reserved ∧ t.faults = s.faults ∧
    (¬ isReport i → t.diag = s.diag) ∧
    (∀ op, i = .unhandled op → t.diag = s.diag ++ [⟨op, s.pc⟩])

/-- R23: no instruction reads a flag. Two states that differ in flags alone take steps that differ in flags
alone. -/
def Obligations.NoInstructionReadsFlags : Prop :=
  ∀ s s' : State, SameButFlags s s' →
    (∀ f, step s = .fault f ↔ step s' = .fault f) ∧
    (∀ t, step s = .next t → ∃ t', step s' = .next t' ∧ SameButFlags t t')

/-- R146: the cycle cost of every instruction, between 1 and 6. -/
def Obligations.CycleTableHolds : Prop :=
  ∀ (i : Instr) (s t : State), exec i s = .next t →
    t.remaining = s.remaining - tableCycles i s ∧ 1 ≤ tableCycles i s ∧ tableCycles i s ≤ 6

/-! ## Faults -/

/-- R124: AddressOverflow needs WRAP16 = Fault, so under Wrap a running core always takes its step; and no
instruction is without a meaning. -/
def Obligations.WrapParameterExcludesFaults : Prop :=
  (∀ s : State, Running s → s.params.wrap16 = .wrap → SafeStep s) ∧
  ∀ (s : State) (r : Refusal), step s ≠ .refused r

/-- R126 and R76: a stopped core stays stopped under every host command but `reset()`, and `execute` returns
(0, Faulted) and changes nothing. -/
def Obligations.StoppedCoreWaitsForReset : Prop :=
  ∀ (s : State) (a : Addr) (b : Nat), s.status = .faulted a b →
    step s = .fault (.addressOverflow a b) ∧
    (∀ k, hostExecute k s = ⟨0, .faulted, s⟩) ∧
    (∀ k, k ≠ .reset → (hostCommand k s).2.status = .faulted a b) ∧
    (hostCommand .reset s).2.status = .running

/-- R126: an AddressOverflow ends `execute` at once and leaves `status` Faulted with its two addends; that it adds
nothing to `diag` is the model's reading (R127, assumption log 11), and that this call's own outcome is Faulted is
the model's choice (assumption log 23). The second clause is about an overflow in any instruction of the call:
it is that of the first step, after steps that all finish, that raises one. -/
def Obligations.OverflowStopsExecute : Prop :=
  (∀ (s : State) (a : Addr) (b k : Nat), Running s → step s = .fault (.addressOverflow a b) →
    (hostExecute (k + 1) s).outcome = .faulted ∧
    (hostExecute (k + 1) s).state.status = .faulted a b ∧
    (hostExecute (k + 1) s).state.diag = s.diag) ∧
  ∀ (s : State) (k : Nat), Running s → (hostExecute k s).outcome = .faulted →
    ∃ (n : Nat) (u : State) (a : Addr) (b : Nat),
      core.run n { s with remaining := k } = .next u ∧ 0 < u.remaining ∧
      step u = .fault (.addressOverflow a b) ∧
      (hostExecute k s).state.status = .faulted a b ∧ (hostExecute k s).state.diag = u.diag

/-- R29, R126: after `execute` on a running core, `status` is Faulted exactly when the outcome is. The outcome of
the call that meets the overflow is the model's choice (assumption log 23). -/
def Obligations.ExecuteStatusMatchesOutcome : Prop :=
  ∀ (s : State) (k : Nat), Running s →
    ((hostExecute k s).outcome = .faulted ↔ ∃ a b, (hostExecute k s).state.status = .faulted a b) ∧
    ∀ r, (hostExecute k s).outcome ≠ .refused r

/-! ## The host port -/

/-- R77: `execute(0)` charges no cycle and changes no state. -/
def Obligations.ExecuteZeroChangesNothing : Prop :=
  ∀ s : State, (hostExecute 0 s).used = 0 ∧ (hostExecute 0 s).state = s

/-- R78: the overrun law. That a call which meets an AddressOverflow is not an Ok one is the model's choice
(assumption log 23). -/
def Obligations.ExecuteOverrunBounded : Prop :=
  ∀ (s : State) (k : Nat), 0 < k → (hostExecute k s).outcome = .ok →
    (k : Int) ≤ (hostExecute k s).used ∧ (hostExecute k s).used ≤ k + 5

/-- R137: `execute(1)` runs exactly one instruction and returns its cost. -/
def Obligations.ExecuteOneRunsOneStep : Prop :=
  ∀ s t : State, Running s → step s = .next t →
    (hostExecute 1 s).used = s.remaining - t.remaining ∧
    (hostExecute 1 s).state = { t with remaining := s.remaining }

/-- R27: no host command and no instruction changes a parameter. -/
def Obligations.ParametersAreFixed : Prop :=
  ∀ (k : HostCommand) (s : State), (hostCommand k s).2.params = s.params

/-- R26: each setter writes its whole field unchecked and nothing else, the getter returns it, and neither
charges a cycle. -/
def Obligations.SettersWriteTheirFieldOnly : Prop :=
  ∀ s : State,
    (∀ r v, let t := (hostCommand (.setWord r v) s).2
      (hostCommand (.getWord r) t).1 = .word v ∧ (∀ q, q ≠ r → getWordReg q t = getWordReg q s) ∧
      t = { s with pc := t.pc, sp := t.sp }) ∧
    (∀ r v, let t := (hostCommand (.setByte r v) s).2
      (hostCommand (.getByte r) t).1 = .byte v ∧ (∀ q, q ≠ r → getReg q t = getReg q s) ∧
      t = { s with a := t.a, x := t.x, y := t.y }) ∧
    (∀ f v, let t := (hostCommand (.setFlag f v) s).2
      (hostCommand (.getFlag f) t).1 = .flag v ∧ (∀ g, g ≠ f → getFlag g t = getFlag g s) ∧
      t = { s with c := t.c, z := t.z, i := t.i, d := t.d, b := t.b, v := t.v, n := t.n }) ∧
    (∀ r, (hostCommand (.getWord r) s).2 = s) ∧ (∀ r, (hostCommand (.getByte r) s).2 = s) ∧
    (∀ f, (hostCommand (.getFlag f) s).2 = s)

/-- R34: the host's poke and peek are the memory primitives, with no cycle charge. -/
def Obligations.HostPokesAndPeeks : Prop :=
  ∀ (s : State) (addr : Addr) (v : Byte), s.mem.wf = true →
    let t := (hostCommand (.memWrite addr v) s).2
    (hostCommand (.memRead addr) t).1 = .byte v ∧ (hostCommand (.memRead addr) t).2 = t ∧
    (∀ other, other ≠ addr → (hostCommand (.memRead other) t).1 = (hostCommand (.memRead other) s).1) ∧
    t = { s with mem := t.mem }

/-! ## `execute`, instruction by instruction -/

/-- R76 for every instruction that finishes, the last, the halting and the others: with `c` its cost and `t'` the
state after it, `execute` stops there under Halt on an Unhandled byte (R125) or when the budget is met, and
otherwise goes on from `t'` with the rest of the budget. With OverflowStopsExecute (a first instruction that
faults), StoppedCoreWaitsForReset and ExecuteZeroChangesNothing this fixes every call. The counter field of `t'` is
the model's (assumption log 5), and the cycles a faulting call returns are free (R126, assumption log 8); such a call is told by its outcome
(assumption log 23). -/
def Obligations.ExecuteContinuesAfterInstruction : Prop :=
  ∀ (s t : State) (k : Nat), Running s → 0 < k → step s = .next t →
    let c : Int := s.remaining - t.remaining
    let t' : State := { t with remaining := s.remaining }
    let op : Byte := memRead s s.pc
    (s.params.illegalPolicy = .halt → isUnhandledByte op = true →
      hostExecute k s = ⟨c, .invalidOpcode op s.pc, t'⟩) ∧
    ((s.params.illegalPolicy = .halt → isUnhandledByte op = false) →
      ((k : Int) ≤ c → hostExecute k s = ⟨c, .ok, t'⟩) ∧
      (∀ rest : Nat, 0 < rest → (k : Int) = c + rest →
        (hostExecute k s).outcome = (hostExecute rest t').outcome ∧
        (hostExecute k s).state = (hostExecute rest t').state ∧
        ((hostExecute rest t').outcome ≠ .faulted →
          (hostExecute k s).used = c + (hostExecute rest t').used)))
end

