-- ==== Sys2Proof/Laws/Decode.lean ====
section
/-! SUPPORT. The byte-order helpers undo one another, and a decoded instruction's pair and length are its opcode
byte's alone. -/
namespace Sys2Proof

/-- The bits of a word put together from its two bytes. -/
theorem wordOf_getLsbD (hi lo : Byte) (i : Nat) :
    (wordOf hi lo).getLsbD i = if i < 8 then lo.getLsbD i else hi.getLsbD (i - 8) :=
  (BitVec.getLsbD_append (x := hi) (y := lo) (i := i)).trans (by simp)

@[simp] theorem lo8_wordOf (hi lo : Byte) : lo8 (wordOf hi lo) = lo := by
  apply BitVec.eq_of_getLsbD_eq
  intro i h
  simp [lo8, wordOf_getLsbD, h]

@[simp] theorem hi8_wordOf (hi lo : Byte) : hi8 (wordOf hi lo) = hi := by
  apply BitVec.eq_of_getLsbD_eq
  intro i h
  simp [hi8, wordOf_getLsbD, h]

@[simp] theorem wordOf_hi8_lo8 (w : Addr) : wordOf (hi8 w) (lo8 w) = w := by
  apply BitVec.eq_of_getLsbD_eq
  intro i h
  rw [wordOf_getLsbD]
  split
  · simp [lo8, *]
  · have h8 : i - 8 < 8 := by omega
    have : 8 + (i - 8) = i := by omega
    simp [hi8, h8, this]

/-- The pair of a decoded instruction is the opcode byte's alone (R52). -/
theorem decodeOp_pair (op lo hi : Byte) : (decodeOp op lo hi).pair = opcodeMap op := by
  unfold opcodeMap decodeOp
  split <;> rfl

theorem decodeOp_length (op lo hi : Byte) : (decodeOp op lo hi).length = opcodeLength op := by
  rw [Instr.length, decodeOp_pair, opcodeLength]

end Sys2Proof
end

