-- ==== Sys2Proof/Laws/State.lean ====
section
/-! SUPPORT. One lemma per field per update of State, true by rfl (or by the three cases of the register name),
so that no proof unfolds a record update. -/
namespace Sys2Proof.Machine

variable (s : State)

/-! ### charge -/

@[simp] theorem charge_pc (k : Nat) : (charge k s).pc = s.pc := rfl
@[simp] theorem charge_sp (k : Nat) : (charge k s).sp = s.sp := rfl
@[simp] theorem charge_a (k : Nat) : (charge k s).a = s.a := rfl
@[simp] theorem charge_x (k : Nat) : (charge k s).x = s.x := rfl
@[simp] theorem charge_y (k : Nat) : (charge k s).y = s.y := rfl
@[simp] theorem charge_c (k : Nat) : (charge k s).c = s.c := rfl
@[simp] theorem charge_z (k : Nat) : (charge k s).z = s.z := rfl
@[simp] theorem charge_i (k : Nat) : (charge k s).i = s.i := rfl
@[simp] theorem charge_d (k : Nat) : (charge k s).d = s.d := rfl
@[simp] theorem charge_b (k : Nat) : (charge k s).b = s.b := rfl
@[simp] theorem charge_v (k : Nat) : (charge k s).v = s.v := rfl
@[simp] theorem charge_n (k : Nat) : (charge k s).n = s.n := rfl
@[simp] theorem charge_reserved (k : Nat) : (charge k s).reserved = s.reserved := rfl
@[simp] theorem charge_mem (k : Nat) : (charge k s).mem = s.mem := rfl
@[simp] theorem charge_remaining (k : Nat) : (charge k s).remaining = s.remaining - k := rfl
@[simp] theorem charge_status (k : Nat) : (charge k s).status = s.status := rfl
@[simp] theorem charge_diag (k : Nat) : (charge k s).diag = s.diag := rfl
@[simp] theorem charge_params (k : Nat) : (charge k s).params = s.params := rfl
@[simp] theorem charge_faults (k : Nat) : (charge k s).faults = s.faults := rfl

/-! ### memWrite -/

@[simp] theorem memWrite_pc (addr : Addr) (w : Byte) : (memWrite addr w s).pc = s.pc := rfl
@[simp] theorem memWrite_sp (addr : Addr) (w : Byte) : (memWrite addr w s).sp = s.sp := rfl
@[simp] theorem memWrite_a (addr : Addr) (w : Byte) : (memWrite addr w s).a = s.a := rfl
@[simp] theorem memWrite_x (addr : Addr) (w : Byte) : (memWrite addr w s).x = s.x := rfl
@[simp] theorem memWrite_y (addr : Addr) (w : Byte) : (memWrite addr w s).y = s.y := rfl
@[simp] theorem memWrite_c (addr : Addr) (w : Byte) : (memWrite addr w s).c = s.c := rfl
@[simp] theorem memWrite_z (addr : Addr) (w : Byte) : (memWrite addr w s).z = s.z := rfl
@[simp] theorem memWrite_i (addr : Addr) (w : Byte) : (memWrite addr w s).i = s.i := rfl
@[simp] theorem memWrite_d (addr : Addr) (w : Byte) : (memWrite addr w s).d = s.d := rfl
@[simp] theorem memWrite_b (addr : Addr) (w : Byte) : (memWrite addr w s).b = s.b := rfl
@[simp] theorem memWrite_v (addr : Addr) (w : Byte) : (memWrite addr w s).v = s.v := rfl
@[simp] theorem memWrite_n (addr : Addr) (w : Byte) : (memWrite addr w s).n = s.n := rfl
@[simp] theorem memWrite_reserved (addr : Addr) (w : Byte) : (memWrite addr w s).reserved = s.reserved := rfl
@[simp] theorem memWrite_mem (addr : Addr) (w : Byte) : (memWrite addr w s).mem = s.mem.write addr.toNat w := rfl
@[simp] theorem memWrite_remaining (addr : Addr) (w : Byte) : (memWrite addr w s).remaining = s.remaining := rfl
@[simp] theorem memWrite_status (addr : Addr) (w : Byte) : (memWrite addr w s).status = s.status := rfl
@[simp] theorem memWrite_diag (addr : Addr) (w : Byte) : (memWrite addr w s).diag = s.diag := rfl
@[simp] theorem memWrite_params (addr : Addr) (w : Byte) : (memWrite addr w s).params = s.params := rfl
@[simp] theorem memWrite_faults (addr : Addr) (w : Byte) : (memWrite addr w s).faults = s.faults := rfl

/-! ### memClear -/

@[simp] theorem memClear_pc : (memClear s).pc = s.pc := rfl
@[simp] theorem memClear_sp : (memClear s).sp = s.sp := rfl
@[simp] theorem memClear_a : (memClear s).a = s.a := rfl
@[simp] theorem memClear_x : (memClear s).x = s.x := rfl
@[simp] theorem memClear_y : (memClear s).y = s.y := rfl
@[simp] theorem memClear_c : (memClear s).c = s.c := rfl
@[simp] theorem memClear_z : (memClear s).z = s.z := rfl
@[simp] theorem memClear_i : (memClear s).i = s.i := rfl
@[simp] theorem memClear_d : (memClear s).d = s.d := rfl
@[simp] theorem memClear_b : (memClear s).b = s.b := rfl
@[simp] theorem memClear_v : (memClear s).v = s.v := rfl
@[simp] theorem memClear_n : (memClear s).n = s.n := rfl
@[simp] theorem memClear_reserved : (memClear s).reserved = s.reserved := rfl
@[simp] theorem memClear_mem : (memClear s).mem = [] := rfl
@[simp] theorem memClear_remaining : (memClear s).remaining = s.remaining := rfl
@[simp] theorem memClear_status : (memClear s).status = s.status := rfl
@[simp] theorem memClear_diag : (memClear s).diag = s.diag := rfl
@[simp] theorem memClear_params : (memClear s).params = s.params := rfl
@[simp] theorem memClear_faults : (memClear s).faults = s.faults := rfl

/-! ### setZN -/

@[simp] theorem setZN_pc (w : Byte) : (setZN w s).pc = s.pc := rfl
@[simp] theorem setZN_sp (w : Byte) : (setZN w s).sp = s.sp := rfl
@[simp] theorem setZN_a (w : Byte) : (setZN w s).a = s.a := rfl
@[simp] theorem setZN_x (w : Byte) : (setZN w s).x = s.x := rfl
@[simp] theorem setZN_y (w : Byte) : (setZN w s).y = s.y := rfl
@[simp] theorem setZN_c (w : Byte) : (setZN w s).c = s.c := rfl
@[simp] theorem setZN_z (w : Byte) : (setZN w s).z = zeroFlag w := rfl
@[simp] theorem setZN_i (w : Byte) : (setZN w s).i = s.i := rfl
@[simp] theorem setZN_d (w : Byte) : (setZN w s).d = s.d := rfl
@[simp] theorem setZN_b (w : Byte) : (setZN w s).b = s.b := rfl
@[simp] theorem setZN_v (w : Byte) : (setZN w s).v = s.v := rfl
@[simp] theorem setZN_n (w : Byte) : (setZN w s).n = negativeFlag w := rfl
@[simp] theorem setZN_reserved (w : Byte) : (setZN w s).reserved = s.reserved := rfl
@[simp] theorem setZN_mem (w : Byte) : (setZN w s).mem = s.mem := rfl
@[simp] theorem setZN_remaining (w : Byte) : (setZN w s).remaining = s.remaining := rfl
@[simp] theorem setZN_status (w : Byte) : (setZN w s).status = s.status := rfl
@[simp] theorem setZN_diag (w : Byte) : (setZN w s).diag = s.diag := rfl
@[simp] theorem setZN_params (w : Byte) : (setZN w s).params = s.params := rfl
@[simp] theorem setZN_faults (w : Byte) : (setZN w s).faults = s.faults := rfl

/-! ### raiseInvalidOpcode -/

@[simp] theorem raiseInvalidOpcode_pc (op : Byte) (addr : Addr) : (raiseInvalidOpcode op addr s).pc = s.pc := rfl
@[simp] theorem raiseInvalidOpcode_sp (op : Byte) (addr : Addr) : (raiseInvalidOpcode op addr s).sp = s.sp := rfl
@[simp] theorem raiseInvalidOpcode_a (op : Byte) (addr : Addr) : (raiseInvalidOpcode op addr s).a = s.a := rfl
@[simp] theorem raiseInvalidOpcode_x (op : Byte) (addr : Addr) : (raiseInvalidOpcode op addr s).x = s.x := rfl
@[simp] theorem raiseInvalidOpcode_y (op : Byte) (addr : Addr) : (raiseInvalidOpcode op addr s).y = s.y := rfl
@[simp] theorem raiseInvalidOpcode_c (op : Byte) (addr : Addr) : (raiseInvalidOpcode op addr s).c = s.c := rfl
@[simp] theorem raiseInvalidOpcode_z (op : Byte) (addr : Addr) : (raiseInvalidOpcode op addr s).z = s.z := rfl
@[simp] theorem raiseInvalidOpcode_i (op : Byte) (addr : Addr) : (raiseInvalidOpcode op addr s).i = s.i := rfl
@[simp] theorem raiseInvalidOpcode_d (op : Byte) (addr : Addr) : (raiseInvalidOpcode op addr s).d = s.d := rfl
@[simp] theorem raiseInvalidOpcode_b (op : Byte) (addr : Addr) : (raiseInvalidOpcode op addr s).b = s.b := rfl
@[simp] theorem raiseInvalidOpcode_v (op : Byte) (addr : Addr) : (raiseInvalidOpcode op addr s).v = s.v := rfl
@[simp] theorem raiseInvalidOpcode_n (op : Byte) (addr : Addr) : (raiseInvalidOpcode op addr s).n = s.n := rfl
@[simp] theorem raiseInvalidOpcode_reserved (op : Byte) (addr : Addr) : (raiseInvalidOpcode op addr s).reserved = s.reserved := rfl
@[simp] theorem raiseInvalidOpcode_mem (op : Byte) (addr : Addr) : (raiseInvalidOpcode op addr s).mem = s.mem := rfl
@[simp] theorem raiseInvalidOpcode_remaining (op : Byte) (addr : Addr) : (raiseInvalidOpcode op addr s).remaining = s.remaining := rfl
@[simp] theorem raiseInvalidOpcode_status (op : Byte) (addr : Addr) : (raiseInvalidOpcode op addr s).status = s.status := rfl
@[simp] theorem raiseInvalidOpcode_diag (op : Byte) (addr : Addr) : (raiseInvalidOpcode op addr s).diag = s.diag ++ [⟨op, addr⟩] := rfl
@[simp] theorem raiseInvalidOpcode_params (op : Byte) (addr : Addr) : (raiseInvalidOpcode op addr s).params = s.params := rfl
@[simp] theorem raiseInvalidOpcode_faults (op : Byte) (addr : Addr) : (raiseInvalidOpcode op addr s).faults = s.faults := rfl

/-! ### setReg -/

@[simp] theorem setReg_pc (r : Reg) (w : Byte) : (setReg r w s).pc = s.pc := by cases r <;> rfl
@[simp] theorem setReg_sp (r : Reg) (w : Byte) : (setReg r w s).sp = s.sp := by cases r <;> rfl
@[simp] theorem setReg_c (r : Reg) (w : Byte) : (setReg r w s).c = s.c := by cases r <;> rfl
@[simp] theorem setReg_z (r : Reg) (w : Byte) : (setReg r w s).z = s.z := by cases r <;> rfl
@[simp] theorem setReg_i (r : Reg) (w : Byte) : (setReg r w s).i = s.i := by cases r <;> rfl
@[simp] theorem setReg_d (r : Reg) (w : Byte) : (setReg r w s).d = s.d := by cases r <;> rfl
@[simp] theorem setReg_b (r : Reg) (w : Byte) : (setReg r w s).b = s.b := by cases r <;> rfl
@[simp] theorem setReg_v (r : Reg) (w : Byte) : (setReg r w s).v = s.v := by cases r <;> rfl
@[simp] theorem setReg_n (r : Reg) (w : Byte) : (setReg r w s).n = s.n := by cases r <;> rfl
@[simp] theorem setReg_reserved (r : Reg) (w : Byte) : (setReg r w s).reserved = s.reserved := by cases r <;> rfl
@[simp] theorem setReg_mem (r : Reg) (w : Byte) : (setReg r w s).mem = s.mem := by cases r <;> rfl
@[simp] theorem setReg_remaining (r : Reg) (w : Byte) : (setReg r w s).remaining = s.remaining := by cases r <;> rfl
@[simp] theorem setReg_status (r : Reg) (w : Byte) : (setReg r w s).status = s.status := by cases r <;> rfl
@[simp] theorem setReg_diag (r : Reg) (w : Byte) : (setReg r w s).diag = s.diag := by cases r <;> rfl
@[simp] theorem setReg_params (r : Reg) (w : Byte) : (setReg r w s).params = s.params := by cases r <;> rfl
@[simp] theorem setReg_faults (r : Reg) (w : Byte) : (setReg r w s).faults = s.faults := by cases r <;> rfl
@[simp] theorem setReg_a_a (w : Byte) : (setReg .a w s).a = w := rfl
@[simp] theorem setReg_a_x (w : Byte) : (setReg .a w s).x = s.x := rfl
@[simp] theorem setReg_a_y (w : Byte) : (setReg .a w s).y = s.y := rfl
@[simp] theorem setReg_x_a (w : Byte) : (setReg .x w s).a = s.a := rfl
@[simp] theorem setReg_x_x (w : Byte) : (setReg .x w s).x = w := rfl
@[simp] theorem setReg_x_y (w : Byte) : (setReg .x w s).y = s.y := rfl
@[simp] theorem setReg_y_a (w : Byte) : (setReg .y w s).a = s.a := rfl
@[simp] theorem setReg_y_x (w : Byte) : (setReg .y w s).x = s.x := rfl
@[simp] theorem setReg_y_y (w : Byte) : (setReg .y w s).y = w := rfl

@[simp] theorem getReg_setReg_same (r : Reg) (w : Byte) : getReg r (setReg r w s) = w := by cases r <;> rfl

theorem getReg_setReg_other {r q : Reg} (h : q ≠ r) (w : Byte) : getReg q (setReg r w s) = getReg q s := by
  cases r <;> cases q <;> first | rfl | exact absurd rfl h

@[simp] theorem getReg_a : getReg .a s = s.a := rfl
@[simp] theorem getReg_x : getReg .x s = s.x := rfl
@[simp] theorem getReg_y : getReg .y s = s.y := rfl

/-! ### chargeIf -/

/-- `chargeIf` lowers the counter by one or by nothing. -/
theorem chargeIf_eq (cond : Bool) : chargeIf cond s = charge (if cond then 1 else 0) s := by
  cases cond
  · simp [chargeIf, charge]
  · rfl

theorem charge_charge (k m : Nat) : charge m (charge k s) = charge (k + m) s := by
  simp [charge, Int.sub_sub]

theorem charge_zero : charge 0 s = s := by simp [charge]

end Sys2Proof.Machine
end

