-- ==== Sys2Proof/Laws/Memory.lean ====
section
/-! SUPPORT. The laws of memory: read after write, and that every memory operation keeps the canonical form. -/
namespace Sys2Proof.Machine

@[simp] theorem Memory.read_nil (a : Nat) : Memory.read [] a = unlistedByte := rfl

@[simp] theorem Memory.wf_nil : Memory.wf [] = true := rfl

/-- The parts of the canonical form of a listed cell and the cells after it. -/
theorem Memory.wfFrom_cons {lo k : Nat} {w : Byte} {m : Memory} :
    Memory.wfFrom lo ((k, w) :: m) = true ↔
      lo ≤ k ∧ k < 65536 ∧ w ≠ unlistedByte ∧ Memory.wfFrom (k + 1) m = true := by
  simp [Memory.wfFrom, and_assoc]

/-- A canonical memory stays canonical from any lower bound. -/
theorem Memory.wfFrom_mono {lo lo' : Nat} (h : lo' ≤ lo) {m : Memory}
    (hm : Memory.wfFrom lo m = true) : Memory.wfFrom lo' m = true := by
  cases m with
  | nil => rfl
  | cons c m =>
    obtain ⟨k, w⟩ := c
    rw [Memory.wfFrom_cons] at hm ⊢
    exact ⟨h.trans hm.1, hm.2⟩

/-- Below its bound a canonical memory lists nothing. -/
theorem Memory.read_below {lo a : Nat} {m : Memory} (hm : Memory.wfFrom lo m = true) (ha : a < lo) :
    m.read a = unlistedByte := by
  induction m generalizing lo with
  | nil => rfl
  | cons c m ih =>
    obtain ⟨k, w⟩ := c
    rw [Memory.wfFrom_cons] at hm
    have : a ≠ k := by omega
    simp only [Memory.read, this, if_false]
    exact ih hm.2.2.2 (by omega)

/-- A write leaves every other cell alone. -/
theorem Memory.read_write_other {a b : Nat} (h : b ≠ a) (m : Memory) (v : Byte) :
    (m.write a v).read b = m.read b := by
  induction m with
  | nil => by_cases hv : v = unlistedByte <;> simp [Memory.write, Memory.read, hv, h]
  | cons c m ih =>
    obtain ⟨k, w⟩ := c
    by_cases hlt : a < k
    · by_cases hv : v = unlistedByte <;> simp [Memory.write, Memory.read, hlt, hv, h]
    · by_cases hk : a = k
      · subst hk
        by_cases hv : v = unlistedByte <;> simp [Memory.write, Memory.read, hv, h]
      · simp [Memory.write, Memory.read, hlt, hk, ih]

/-- A read of the written cell gives the value written, in a canonical memory. -/
theorem Memory.read_write_same {lo a : Nat} {m : Memory} (hm : Memory.wfFrom lo m = true) (v : Byte) :
    (m.write a v).read a = v := by
  induction m generalizing lo with
  | nil => by_cases hv : v = unlistedByte <;> simp [Memory.write, Memory.read, hv]
  | cons c m ih =>
    obtain ⟨k, w⟩ := c
    have hm' := Memory.wfFrom_cons.mp hm
    by_cases hlt : a < k
    · by_cases hv : v = unlistedByte
      · have hb := Memory.read_below (Memory.wfFrom_cons.mpr ⟨Nat.le_refl k, hm'.2⟩) hlt
        simp only [Memory.write, hlt, hv, if_true]
        exact hb
      · simp [Memory.write, Memory.read, hlt, hv]
    · by_cases hk : a = k
      · subst hk
        by_cases hv : v = unlistedByte
        · simp only [Memory.write, hv, if_true, Nat.lt_irrefl, if_false]
          exact Memory.read_below hm'.2.2.2 (by omega)
        · simp [Memory.write, Memory.read, hv]
      · simp only [Memory.write, Memory.read, hlt, hk, if_false]
        exact ih hm'.2.2.2

/-- A write to one of the 65536 cells keeps the canonical form. -/
theorem Memory.wfFrom_write {lo a : Nat} {m : Memory} (hm : Memory.wfFrom lo m = true) (hlo : lo ≤ a)
    (ha : a < 65536) (v : Byte) : Memory.wfFrom lo (m.write a v) = true := by
  induction m generalizing lo with
  | nil => by_cases hv : v = unlistedByte <;> simp [Memory.write, Memory.wfFrom, hv, hlo, ha]
  | cons c m ih =>
    obtain ⟨k, w⟩ := c
    have hm' := Memory.wfFrom_cons.mp hm
    by_cases hlt : a < k
    · by_cases hv : v = unlistedByte
      · simpa only [Memory.write, hlt, hv, if_true] using hm
      · simp only [Memory.write, hlt, hv, if_true, if_false]
        exact Memory.wfFrom_cons.mpr ⟨hlo, ha, hv, Memory.wfFrom_cons.mpr ⟨hlt, hm'.2⟩⟩
    · by_cases hk : a = k
      · subst hk
        by_cases hv : v = unlistedByte
        · simp only [Memory.write, hv, if_true, Nat.lt_irrefl, if_false]
          exact Memory.wfFrom_mono (by omega) hm'.2.2.2
        · simp only [Memory.write, hv, if_true, Nat.lt_irrefl, if_false]
          exact Memory.wfFrom_cons.mpr ⟨hlo, ha, hv, hm'.2.2.2⟩
      · simp only [Memory.write, hlt, hk, if_false]
        exact Memory.wfFrom_cons.mpr ⟨hm'.1, hm'.2.1, hm'.2.2.1, ih hm'.2.2.2 (by omega)⟩

theorem Memory.wf_write {a : Nat} {m : Memory} (hm : m.wf = true) (ha : a < 65536) (v : Byte) :
    (m.write a v).wf = true :=
  Memory.wfFrom_write hm (Nat.zero_le a) ha v

/-- A memory built cell by cell is canonical. -/
theorem Memory.wfFrom_ofCells (f : Nat → Byte) (lo count : Nat) (h : lo + count ≤ 65536) :
    Memory.wfFrom lo (Memory.ofCells f lo count) = true := by
  induction count generalizing lo with
  | zero => rfl
  | succ count ih =>
    by_cases hv : f lo = unlistedByte
    · simp only [Memory.ofCells, hv, if_true]
      exact Memory.wfFrom_mono (Nat.le_succ lo) (ih (lo + 1) (by omega))
    · simp only [Memory.ofCells, hv, if_false]
      exact Memory.wfFrom_cons.mpr ⟨Nat.le_refl lo, by omega, hv, ih (lo + 1) (by omega)⟩

theorem Memory.wf_ofCells (f : Nat → Byte) : Memory.wf (Memory.ofCells f 0 65536) = true :=
  Memory.wfFrom_ofCells f 0 65536 (Nat.le_refl _)

/-! ## Through the state -/

theorem memRead_memWrite_same {s : State} (hm : s.mem.wf = true) (addr : Addr) (v : Byte) :
    memRead (memWrite addr v s) addr = v :=
  Memory.read_write_same hm v

theorem memRead_memWrite_other {addr addr' : Addr} (h : addr' ≠ addr) (v : Byte) (s : State) :
    memRead (memWrite addr v s) addr' = memRead s addr' :=
  Memory.read_write_other (fun e => h (BitVec.eq_of_toNat_eq e)) s.mem v

theorem memWrite_wf {s : State} (hm : s.mem.wf = true) (addr : Addr) (v : Byte) :
    (memWrite addr v s).mem.wf = true :=
  Memory.wf_write hm addr.isLt v

@[simp] theorem memRead_charge (k : Nat) (s : State) (addr : Addr) :
    memRead (charge k s) addr = memRead s addr := rfl

@[simp] theorem memRead_setZN (w : Byte) (s : State) (addr : Addr) :
    memRead (setZN w s) addr = memRead s addr := rfl

@[simp] theorem memRead_setReg (r : Reg) (w : Byte) (s : State) (addr : Addr) :
    memRead (setReg r w s) addr = memRead s addr := by cases r <;> rfl

/-- Every cell reads 0x00 after `clear()` (R35). -/
@[simp] theorem memRead_memClear (s : State) (addr : Addr) : memRead (memClear s) addr = 0 := rfl

theorem pokeBytes_wf (vs : List Byte) (addr : Addr) {s : State} (hm : s.mem.wf = true) :
    (pokeBytes vs addr s).mem.wf = true := by
  induction vs generalizing addr s with
  | nil => exact hm
  | cons v vs ih => exact ih (addr + 1) (memWrite_wf hm addr v)

theorem recordAddressOverflow_wf (a : Addr) (b : Nat) (s : State) :
    (recordAddressOverflow a b s).mem.wf = true :=
  Memory.wf_ofCells _

theorem reset_mem_wf : State.reset.mem.wf = true := rfl

end Sys2Proof.Machine
end

