-- ==== Sys2Proof/Laws/Ops.lean ====
section
/-! SUPPORT. One lemma for each shared operation, saying once all it can do: the address sum, the PC advance, the
fetches, the word read and the word write. -/
namespace Sys2Proof.Machine

/-! ## The exception monad and the outcome -/

@[simp] theorem bind_ok {α β : Type} (a : α) (f : α → Except Fault β) :
    (Except.ok a >>= f) = f a := rfl

@[simp] theorem bind_error {α β : Type} (e : Fault) (f : α → Except Fault β) :
    ((Except.error e : Except Fault α) >>= f) = Except.error e := rfl

@[simp] theorem bind_pure_ok {α β : Type} (a : α) (f : α → Except Fault β) :
    ((pure a : Except Fault α) >>= f) = f a := rfl

/-- What a finished sequence of two parts went through. -/
theorem bind_eq_ok {α β : Type} {x : Except Fault α} {f : α → Except Fault β} {b : β}
    (h : x >>= f = .ok b) : ∃ a, x = .ok a ∧ f a = .ok b := by
  cases x with
  | ok a => exact ⟨a, rfl, h⟩
  | error e => exact nomatch h

theorem finish_eq_next {x : Except Fault State} {t : State} : finish x = .next t ↔ x = .ok t := by
  cases x <;> simp [finish]

theorem finish_eq_fault {x : Except Fault State} {f : Fault} : finish x = .fault f ↔ x = .error f := by
  cases x <;> simp [finish]

theorem finish_ne_refused {x : Except Fault State} {r : Refusal} : finish x ≠ .refused r := by
  cases x <;> simp [finish]

/-! ## add16 -/

/-- A sum that fits, or that may wrap, is the 16-bit sum. -/
theorem add16_ok {p : Params} {a : Addr} {b : Nat} (h : a.toNat + b ≤ 0xFFFF ∨ p.wrap16 = .wrap) :
    add16 p a b = .ok (a + BitVec.ofNat 16 b) := by
  by_cases hle : a.toNat + b ≤ 0xFFFF
  · simp only [add16, hle, if_true]
    congr 1
    apply BitVec.eq_of_toNat_eq
    simp
  · have hw : p.wrap16 = .wrap := h.resolve_left hle
    have : BitVec.ofNat 16 (a.toNat + b - 0x10000) = a + BitVec.ofNat 16 b := by
      apply BitVec.eq_of_toNat_eq
      simp only [BitVec.toNat_ofNat, BitVec.toNat_add]
      omega
    simp only [add16, hle, if_false, hw, this]

/-- Otherwise it raises AddressOverflow with its own addends (R36, C9). -/
theorem add16_error {p : Params} {a : Addr} {b : Nat} (h : ¬ (a.toNat + b ≤ 0xFFFF ∨ p.wrap16 = .wrap)) :
    add16 p a b = .error (.addressOverflow a b) := by
  rw [not_or] at h
  have hf : p.wrap16 = .fault := by
    cases hp : p.wrap16 with
    | fault => rfl
    | wrap => exact absurd hp h.2
  simp [add16, h.1, hf, raiseAddressOverflow]

/-- All `add16` can do. -/
theorem add16_cases (p : Params) (a : Addr) (b : Nat) :
    ((a.toNat + b ≤ 0xFFFF ∨ p.wrap16 = .wrap) ∧ add16 p a b = .ok (a + BitVec.ofNat 16 b)) ∨
    (¬ (a.toNat + b ≤ 0xFFFF ∨ p.wrap16 = .wrap) ∧ add16 p a b = .error (.addressOverflow a b)) := by
  by_cases h : a.toNat + b ≤ 0xFFFF ∨ p.wrap16 = .wrap
  · exact .inl ⟨h, add16_ok h⟩
  · exact .inr ⟨h, add16_error h⟩

/-- Adding an index register. -/
theorem add16_index_ok {s : State} {base : Addr} {idx : Byte} (h : CanIndex base idx s) :
    add16 s.params base idx.toNat = .ok (base + zext16 idx) := by
  rw [add16_ok h, zext16, BitVec.ofNat_toNat]

theorem add16_index_error {s : State} {base : Addr} {idx : Byte} (h : ¬ CanIndex base idx s) :
    add16 s.params base idx.toNat = .error (.addressOverflow base idx.toNat) :=
  add16_error h

/-! ## Fetching -/

@[simp] theorem passed_params (len k : Nat) (s : State) : (passed len k s).params = s.params := rfl
@[simp] theorem passed_pc (len k : Nat) (s : State) :
    (passed len k s).pc = s.pc + BitVec.ofNat 16 len := rfl
@[simp] theorem passed_remaining (len k : Nat) (s : State) :
    (passed len k s).remaining = s.remaining - k := rfl
@[simp] theorem memRead_passed (len k : Nat) (s : State) (addr : Addr) :
    memRead (passed len k s) addr = memRead s addr := rfl

theorem advance_ok {s : State} (h : CanFetch 1 s) : advance s = .ok (passed 1 1 s) := by
  simp only [advance, add16_ok h, bind_ok]
  rfl

theorem toNat_of_not_canFetch_one {s : State} (h : ¬ CanFetch 1 s) : s.pc = 0xFFFF := by
  apply BitVec.eq_of_toNat_eq
  have := s.pc.isLt
  simp only [CanFetch, not_or] at h
  simp
  omega

theorem advance_error {s : State} (h : ¬ CanFetch 1 s) :
    advance s = .error (.addressOverflow 0xFFFF 1) := by
  have hpc := toNat_of_not_canFetch_one h
  have h' := add16_error h
  rw [advance, h', hpc]
  rfl

/-- One fetch more. -/
theorem canFetch_succ {s : State} (k j : Nat) (hk : 1 ≤ k) :
    CanFetch (k + 1) s ↔ CanFetch 1 s ∧ CanFetch k (passed 1 j s) := by
  have := s.pc.isLt
  simp only [CanFetch, passed_pc, passed_params, BitVec.toNat_add, BitVec.toNat_ofNat]
  constructor
  · rintro (h | h)
    · exact ⟨.inl (by omega), .inl (by omega)⟩
    · exact ⟨.inr h, .inr h⟩
  · rintro ⟨h | h, h' | h'⟩ <;> first | exact .inr h | exact .inr h' | skip
    exact .inl (by omega)

theorem passed_passed (l k l' k' : Nat) (s : State) :
    passed l' k' (passed l k s) = passed (l + l') (k + k') s := by
  simp [passed, Int.sub_sub, BitVec.add_assoc, BitVec.ofNat_add]

/-- Fetching `k` bytes: `k` cycles and PC moved on by `k`. -/
theorem advanceBy_ok {k : Nat} {s : State} (hk : 1 ≤ k) (h : CanFetch k s) :
    advanceBy k s = .ok (passed k k s) := by
  induction k generalizing s with
  | zero => omega
  | succ k ih =>
    by_cases h0 : k = 0
    · subst h0
      simp only [advanceBy, advance_ok h, bind_ok]
      rfl
    · obtain ⟨h1, h2⟩ := (canFetch_succ k 1 (by omega)).mp h
      simp only [advanceBy, advance_ok h1, bind_ok, ih (by omega) h2, passed_passed]
      rw [Nat.add_comm 1 k]

/-- A fetch that runs past 0xFFFF raises AddressOverflow(0xFFFF, 1). -/
theorem advanceBy_error {k : Nat} {s : State} (hk : 1 ≤ k) (h : ¬ CanFetch k s) :
    advanceBy k s = .error (.addressOverflow 0xFFFF 1) := by
  induction k generalizing s with
  | zero => omega
  | succ k ih =>
    by_cases h1 : CanFetch 1 s
    · by_cases h0 : k = 0
      · subst h0
        exact absurd h1 h
      · have h2 : ¬ CanFetch k (passed 1 1 s) := fun h2 =>
          h ((canFetch_succ k 1 (by omega)).mpr ⟨h1, h2⟩)
        simp only [advanceBy, advance_ok h1, bind_ok, ih (by omega) h2]
    · simp only [advanceBy, advance_error h1, bind_error]

/-- All a fetch of `k` bytes can do. -/
theorem advanceBy_cases (k : Nat) (s : State) (hk : 1 ≤ k) :
    (CanFetch k s ∧ advanceBy k s = .ok (passed k k s)) ∨
    (¬ CanFetch k s ∧ advanceBy k s = .error (.addressOverflow 0xFFFF 1)) := by
  by_cases h : CanFetch k s
  · exact .inl ⟨h, advanceBy_ok hk h⟩
  · exact .inr ⟨h, advanceBy_error hk h⟩

theorem fetchByte_ok {s : State} (h : CanFetch 1 s) :
    fetchByte s = .ok (memRead s s.pc, passed 1 1 s) := by
  simp only [fetchByte, advance_ok h, bind_ok]
  rfl

theorem fetchByte_error {s : State} (h : ¬ CanFetch 1 s) :
    fetchByte s = .error (.addressOverflow 0xFFFF 1) := by
  simp only [fetchByte, advance_error h, bind_error]

/-! ## Words -/

/-- A word read whose high byte's address does not overflow. -/
theorem readWord_ok {addr : Addr} {s : State} (h : addr.toNat + 1 ≤ 0xFFFF ∨ s.params.wrap16 = .wrap) :
    readWord addr s = .ok (wordOf (memRead s (addr + 1)) (memRead s addr), charge 2 s) := by
  simp only [readWord, readByte, charge_params, add16_ok h, bind_ok, memRead_charge]
  exact congrArg (fun t => Except.ok (_, t)) (charge_charge s 1 1)

/-- A word write whose high byte's address does not overflow. -/
theorem writeWord_ok {addr w : Addr} {s : State} (h : addr.toNat + 1 ≤ 0xFFFF ∨ s.params.wrap16 = .wrap) :
    writeWord addr w s = .ok (charge 2 (memWrite (addr + 1) (hi8 w) (memWrite addr (lo8 w) s))) := by
  simp only [writeWord, memWrite_params, add16_ok h, bind_ok]
  rfl

/-- A zero-page address is at most 0x00FF. -/
theorem zext16_toNat (b : Byte) : (zext16 b).toNat = b.toNat := by
  have := b.isLt
  simp only [zext16, BitVec.toNat_setWidth]
  omega

theorem stackSlot_eq_add (sp : Addr) : stackSlot sp = 0x0100 + zext16 (lo8 sp) := by
  have h : ∀ b : Byte, (0x0100 : Addr) ||| zext16 b = 0x0100 + zext16 b := by decide
  exact h (lo8 sp)

/-- The stack slot is at most 0x01FF (R42). -/
theorem stackSlot_toNat (sp : Addr) : (stackSlot sp).toNat = 0x100 + (lo8 sp).toNat := by
  have h : ∀ b : Byte, ((0x0100 : Addr) + zext16 b).toNat = 0x100 + b.toNat := by decide
  rw [stackSlot_eq_add, h]

end Sys2Proof.Machine
end

