-- ==== Sys2Proof/Laws/Operands.lean ====
section
/-! SUPPORT. What the addressing-mode resolver can do: the effective address and the extra cycles of each mode,
or AddressOverflow of an index addition, and nothing else. -/
namespace Sys2Proof.Machine

/-- The zero-page pointer read never overflows (R64). -/
theorem readZpPtr_ok (p : Byte) (s : State) : readZpPtr p s = .ok (zpPointer p s, charge 2 s) := by
  cases h : s.params.zpPtrHi with
  | linear =>
    have hp := p.isLt
    have hz : (zext16 p).toNat + 1 ≤ 0xFFFF := by rw [zext16_toNat]; omega
    simp only [readZpPtr, zpPointer, h, readWord_ok (.inl hz)]
  | zeroPage =>
    simp only [readZpPtr, zpPointer, h, readByte, memRead_charge]
    exact congrArg (fun t => Except.ok (_, t)) (charge_charge s 1 1)

theorem resolveAbsIndexed_ok {base : Addr} {idx : Byte} {s : State} (p : Purpose) (h : CanIndex base idx s) :
    resolveAbsIndexed base idx p s =
      .ok (base + zext16 idx, charge (if p = .load then crossCycle base idx s else 0) s) := by
  simp only [resolveAbsIndexed, add16_index_ok h, bind_ok, chargeIf_eq, crossCycle]
  cases p <;> simp <;> rfl

theorem resolveAbsIndexed_error {base : Addr} {idx : Byte} {s : State} (p : Purpose)
    (h : ¬ CanIndex base idx s) :
    resolveAbsIndexed base idx p s = .error (.addressOverflow base idx.toNat) := by
  simp only [resolveAbsIndexed, add16_index_error h, bind_error]

theorem resolveIndirectX_ok (b : Byte) (s : State) :
    resolveIndirectX b s = .ok (zpPointer (b + s.x) s, charge 3 s) := by
  simp only [resolveIndirectX, readZpPtr_ok, charge_charge]
  rfl

/-- The cycles IndirectY charges after the operand fetch (R73). -/
def indirectYCycles (b : Byte) (p : Purpose) (s : State) : Nat :=
  2 + if p = .load ∨ s.params.storeIndyFixup = .conditional then crossCycle (zpPointer b s) s.y s else 0

theorem resolveIndirectY_ok {b : Byte} {s : State} (p : Purpose) (h : CanIndex (zpPointer b s) s.y s) :
    resolveIndirectY b p s =
      .ok (zpPointer b s + zext16 s.y, charge (indirectYCycles b p s) s) := by
  simp only [resolveIndirectY, readZpPtr_ok, bind_ok, charge_params, charge_y, add16_index_ok h,
    chargeIf_eq, charge_charge, indirectYCycles, crossCycle]
  show Except.ok (_, _) = _
  congr 3
  cases p <;> by_cases hf : s.params.storeIndyFixup = .conditional <;> simp [hf]

theorem resolveIndirectY_error {b : Byte} {s : State} (p : Purpose) (h : ¬ CanIndex (zpPointer b s) s.y s) :
    resolveIndirectY b p s = .error (.addressOverflow (zpPointer b s) s.y.toNat) := by
  simp only [resolveIndirectY, readZpPtr_ok, bind_ok, charge_params, charge_y, add16_index_error h,
    bind_error]

theorem crossCycle_le (base : Addr) (idx : Byte) (s : State) : crossCycle base idx s ≤ 1 := by
  unfold crossCycle
  split <;> omega

/-- The fixed cycle a store of that operand adds (R104). -/
def fixupCycle (p : Params) (o : Operand) : Nat := if storeFixup p o then 1 else 0

/-- All the resolver can do: it answers an address and charges extra cycles, at most four together with the
operand bytes and, for a store, the fixed cycle; or an index addition overflows under WRAP16 = Fault. -/
theorem resolve_cases (o : Operand) (p : Purpose) (s : State) :
    (∃ ea k, operandBytes o + k ≤ 4 ∧ (p = .store → operandBytes o + k + fixupCycle s.params o ≤ 4) ∧
      resolve o p s = .ok (ea, charge k s)) ∨
    (∃ base idx, ¬ CanIndex base idx s ∧ resolve o p s = .error (.addressOverflow base idx.toNat)) := by
  have fixup_le : fixupCycle s.params o ≤ 1 := by unfold fixupCycle; split <;> omega
  have abs_le : ∀ base idx, (if p = .load then crossCycle base idx s else 0) ≤ 1 ∧
      (p = .store → (if p = .load then crossCycle base idx s else 0) = 0) := by
    intro base idx
    have := crossCycle_le base idx s
    cases p <;> simp [this]
  cases o with
  | zeroPage b =>
    exact .inl ⟨_, 0, by simp [operandBytes], fun _ => by simp [operandBytes]; omega, by rw [charge_zero]; rfl⟩
  | zeroPageX b => exact .inl ⟨_, 1, by simp [operandBytes], fun _ => by simp [operandBytes]; omega, rfl⟩
  | zeroPageY b => exact .inl ⟨_, 1, by simp [operandBytes], fun _ => by simp [operandBytes]; omega, rfl⟩
  | absolute w =>
    exact .inl ⟨_, 0, by simp [operandBytes], fun _ => by simp [operandBytes]; omega, by rw [charge_zero]; rfl⟩
  | absoluteX w =>
    by_cases h : CanIndex w s.x s
    · have := abs_le w s.x
      exact .inl ⟨_, _, by simp only [operandBytes]; omega,
        fun hp => by simp only [operandBytes]; have := this.2 hp; omega, resolveAbsIndexed_ok p h⟩
    · exact .inr ⟨_, _, h, resolveAbsIndexed_error p h⟩
  | absoluteY w =>
    by_cases h : CanIndex w s.y s
    · have := abs_le w s.y
      exact .inl ⟨_, _, by simp only [operandBytes]; omega,
        fun hp => by simp only [operandBytes]; have := this.2 hp; omega, resolveAbsIndexed_ok p h⟩
    · exact .inr ⟨_, _, h, resolveAbsIndexed_error p h⟩
  | indirectX b =>
    exact .inl ⟨_, 3, by simp [operandBytes], fun _ => by simp [operandBytes, fixupCycle, storeFixup],
      resolveIndirectX_ok b s⟩
  | indirectY b =>
    by_cases h : CanIndex (zpPointer b s) s.y s
    · have hc := crossCycle_le (zpPointer b s) s.y s
      refine .inl ⟨_, _, ?_, fun hp => ?_, resolveIndirectY_ok p h⟩
      · simp only [operandBytes, indirectYCycles]
        split <;> omega
      · subst hp
        cases hf : s.params.storeIndyFixup
        · simp [operandBytes, indirectYCycles, fixupCycle, storeFixup, hf]
        · simp [operandBytes, indirectYCycles, fixupCycle, storeFixup, hf]
          omega
    · exact .inr ⟨_, _, h, resolveIndirectY_error p h⟩

end Sys2Proof.Machine
end

