-- ==== Sys2Proof/Laws/Exec.lean ====
section
/-! SUPPORT. What an instruction can do, said once per operation kind (load, store, JSR, Unhandled) and once for
`exec`, so that no later proof unfolds a meaning. -/
namespace Sys2Proof.Machine

/-! ## Loads -/

theorem loadValue_charge_passed (r : Reg) (v : Byte) (len k j : Nat) (s : State) :
    loadValue r v (charge j (passed len k s)) = loaded r v len (k + j) s := by
  have h : charge j (passed len k s) = passed len (k + j) s := by
    simp [charge, passed, Int.sub_sub]
  rw [h]
  cases r <;> simp [loadValue, setZN, setReg, loaded, zeroFlag, negativeFlag, passed] <;> rfl

theorem loadImmediate_ok {r : Reg} {v : Byte} {s : State} (h : CanFetch 2 s) :
    loadImmediate r v s = .ok (loaded r v 2 2 s) := by
  simp only [loadImmediate, advanceBy_ok (by omega : 1 ≤ 2) h, bind_ok]
  have := loadValue_charge_passed r v 2 2 0 s
  rw [charge_zero] at this
  exact congrArg Except.ok this

theorem loadImmediate_error {r : Reg} {v : Byte} {s : State} (h : ¬ CanFetch 2 s) :
    loadImmediate r v s = .error (.addressOverflow 0xFFFF 1) := by
  simp only [loadImmediate, advanceBy_error (by omega : 1 ≤ 2) h, bind_error]

/-- A load whose bytes can be fetched and whose address resolves, with `k` extra cycles, in the state after
the fetch. -/
theorem load_ok {r : Reg} {o : Operand} {s : State} {ea : Addr} {k : Nat}
    (hf : CanFetch (1 + operandBytes o) s)
    (hr : resolve o .load (passed (1 + operandBytes o) (1 + operandBytes o) s) =
      .ok (ea, charge k (passed (1 + operandBytes o) (1 + operandBytes o) s))) :
    load r o s = .ok (loaded r (memRead s ea) (1 + operandBytes o) (1 + operandBytes o + (k + 1)) s) := by
  simp only [load, advanceBy_ok (by omega : 1 ≤ 1 + operandBytes o) hf, bind_ok, hr, readByte,
    charge_charge, memRead_charge, memRead_passed]
  exact congrArg Except.ok (loadValue_charge_passed ..)

theorem load_fetch_error {r : Reg} {o : Operand} {s : State} (h : ¬ CanFetch (1 + operandBytes o) s) :
    load r o s = .error (.addressOverflow 0xFFFF 1) := by
  simp only [load, advanceBy_error (by omega : 1 ≤ 1 + operandBytes o) h, bind_error]

theorem load_resolve_error {r : Reg} {o : Operand} {s : State} {f : Fault}
    (hf : CanFetch (1 + operandBytes o) s)
    (hr : resolve o .load (passed (1 + operandBytes o) (1 + operandBytes o) s) = .error f) :
    load r o s = .error f := by
  simp only [load, advanceBy_ok (by omega : 1 ≤ 1 + operandBytes o) hf, bind_ok, hr, bind_error]

/-! ## Stores -/

/-- `s` after a store, as the model's memory write gives it. -/
def storedState (ea : Addr) (v : Byte) (len cycles : Nat) (s : State) : State :=
  memWrite ea v (passed len cycles s)

/-- A store in a canonical memory is a store as the rules describe it. -/
theorem stored_storedState {s : State} (hm : s.mem.wf = true) (ea : Addr) (v : Byte) (len cycles : Nat) :
    Stored ea v len cycles s (storedState ea v len cycles s) :=
  ⟨memRead_memWrite_same (s := passed len cycles s) hm ea v,
    fun _ h => memRead_memWrite_other h v (passed len cycles s), rfl⟩

theorem store_ok {r : Reg} {o : Operand} {s : State} {ea : Addr} {k : Nat}
    (hf : CanFetch (1 + operandBytes o) s)
    (hr : resolve o .store (passed (1 + operandBytes o) (1 + operandBytes o) s) =
      .ok (ea, charge k (passed (1 + operandBytes o) (1 + operandBytes o) s))) :
    store r o s = .ok (storedState ea (getReg r s) (1 + operandBytes o)
      (1 + operandBytes o + (k + (1 + fixupCycle s.params o))) s) := by
  simp only [store, advanceBy_ok (by omega : 1 ≤ 1 + operandBytes o) hf, bind_ok, hr, chargeIf_eq,
    writeByte, charge_params, passed_params, charge_charge]
  refine congrArg Except.ok ?_
  by_cases hx : storeFixup s.params o = true <;> cases r <;>
    simp [storedState, fixupCycle, hx, memWrite, charge, passed, getReg, Int.sub_sub, Int.add_assoc]

theorem store_fetch_error {r : Reg} {o : Operand} {s : State} (h : ¬ CanFetch (1 + operandBytes o) s) :
    store r o s = .error (.addressOverflow 0xFFFF 1) := by
  simp only [store, advanceBy_error (by omega : 1 ≤ 1 + operandBytes o) h, bind_error]

theorem store_resolve_error {r : Reg} {o : Operand} {s : State} {f : Fault}
    (hf : CanFetch (1 + operandBytes o) s)
    (hr : resolve o .store (passed (1 + operandBytes o) (1 + operandBytes o) s) = .error f) :
    store r o s = .error f := by
  simp only [store, advanceBy_ok (by omega : 1 ≤ 1 + operandBytes o) hf, bind_ok, hr, bind_error]

/-! ## JSR -/

/-- `s` after JSR, as the model's memory writes give it. -/
def calledState (target : Addr) (s : State) : State :=
  { memWrite (stackSlot s.sp + 1) (hi8 (s.pc + 2)) (memWrite (stackSlot s.sp) (lo8 (s.pc + 2)) s) with
    sp := Config.jsrSpNext s.sp, pc := target, remaining := s.remaining - 6 }

theorem jumpToSubroutine_ok {target : Addr} {s : State} (h : CanFetch 3 s) :
    jumpToSubroutine target s = .ok (calledState target s) := by
  have hlo := (lo8 s.sp).isLt
  have hs : (stackSlot s.sp).toNat + 1 ≤ 0xFFFF := by
    rw [stackSlot_toNat]
    omega
  have hret : s.pc + BitVec.ofNat 16 3 - 1 = s.pc + 2 := by
    rw [BitVec.sub_eq_add_neg, BitVec.add_assoc]
    rfl
  have hsp : (passed 3 3 s).sp = s.sp := rfl
  simp only [jumpToSubroutine, advanceBy_ok (by omega : 1 ≤ 3) h, bind_ok, hsp, writeWord_ok (.inl hs),
    passed_pc, hret]
  simp [calledState, charge, memWrite, passed, Int.sub_sub]
  rfl

theorem jumpToSubroutine_error {target : Addr} {s : State} (h : ¬ CanFetch 3 s) :
    jumpToSubroutine target s = .error (.addressOverflow 0xFFFF 1) := by
  simp only [jumpToSubroutine, advanceBy_error (by omega : 1 ≤ 3) h, bind_error]

/-! ## Unhandled -/

theorem reportUnhandled_ok {op : Byte} {s : State} (h : CanFetch 1 s) :
    reportUnhandled op s = .ok (raiseInvalidOpcode op s.pc (passed 1 1 s)) := by
  simp only [reportUnhandled, advanceBy_ok (by omega : 1 ≤ 1) h, bind_ok]
  rfl

theorem reportUnhandled_error {op : Byte} {s : State} (h : ¬ CanFetch 1 s) :
    reportUnhandled op s = .error (.addressOverflow 0xFFFF 1) := by
  simp only [reportUnhandled, advanceBy_error (by omega : 1 ≤ 1) h, bind_error]

/-! ## Every instruction -/

/-- The four shapes of a finished instruction. -/
inductive Effect (i : Instr) (s : State) : State → Prop
  /-- a load: its register, Z, N, PC and 2 to 6 cycles -/
  | load (r : Reg) (v : Byte) (k : Nat) (hr : loadTarget i = some r) (lo : 2 ≤ k) (hi : k ≤ 6) :
      Effect i s (loaded r v i.length k s)
  /-- a store of its register: one byte, PC and 3 to 6 cycles -/
  | store (r : Reg) (ea : Addr) (k : Nat) (hr : storeSource i = some r) (lo : 3 ≤ k) (hi : k ≤ 6) :
      Effect i s (storedState ea (getReg r s) i.length k s)
  /-- a call -/
  | call (target : Addr) (hi : i = .jsr target) : Effect i s (calledState target s)
  /-- a report -/
  | report (op : Byte) (hi : i = .unhandled op) :
      Effect i s (raiseInvalidOpcode op s.pc (passed 1 1 s))

/-- Every instruction takes 1 to 6 cycles (R146). -/
theorem Effect.cycles {i : Instr} {s t : State} (h : Effect i s t) :
    1 ≤ s.remaining - t.remaining ∧ s.remaining - t.remaining ≤ 6 := by
  cases h with
  | load r v k =>
    have : (loaded r v i.length k s).remaining = s.remaining - k := by cases r <;> rfl
    omega
  | store r ea k =>
    have : (storedState ea (getReg r s) i.length k s).remaining = s.remaining - k := rfl
    omega
  | call target =>
    have : (calledState target s).remaining = s.remaining - 6 := rfl
    omega
  | report op =>
    have : (raiseInvalidOpcode op s.pc (passed 1 1 s)).remaining = s.remaining - 1 := rfl
    omega

theorem operandBytes_bounds (o : Operand) : 1 ≤ operandBytes o ∧ operandBytes o ≤ 2 := by
  cases o <;> simp [operandBytes]

/-- All a load can do. -/
theorem load_cases (r : Reg) (o : Operand) (s : State) :
    (∃ v k, 2 ≤ k ∧ k ≤ 6 ∧ load r o s = .ok (loaded r v (1 + operandBytes o) k s)) ∨
    (s.params.wrap16 = .fault ∧ ∃ a b, load r o s = .error (.addressOverflow a b)) := by
  have hb := operandBytes_bounds o
  by_cases hf : CanFetch (1 + operandBytes o) s
  · rcases resolve_cases o .load (passed (1 + operandBytes o) (1 + operandBytes o) s) with
      ⟨ea, k, hk, hk', hr⟩ | ⟨base, idx, hn, hr⟩
    · exact .inl ⟨_, _, by omega, by omega, load_ok hf hr⟩
    · refine .inr ⟨?_, _, _, load_resolve_error hf hr⟩
      cases hp : s.params.wrap16 with
      | fault => rfl
      | wrap => exact absurd (Or.inr hp) hn
  · refine .inr ⟨?_, _, _, load_fetch_error hf⟩
    cases hp : s.params.wrap16 with
    | fault => rfl
    | wrap => exact absurd (Or.inr hp) hf

/-- All a store can do. -/
theorem store_cases (r : Reg) (o : Operand) (s : State) :
    (∃ ea k, 3 ≤ k ∧ k ≤ 6 ∧
      store r o s = .ok (storedState ea (getReg r s) (1 + operandBytes o) k s)) ∨
    (s.params.wrap16 = .fault ∧ ∃ a b, store r o s = .error (.addressOverflow a b)) := by
  have hb := operandBytes_bounds o
  by_cases hf : CanFetch (1 + operandBytes o) s
  · rcases resolve_cases o .store (passed (1 + operandBytes o) (1 + operandBytes o) s) with
      ⟨ea, k, hk, hk', hr⟩ | ⟨base, idx, hn, hr⟩
    · have := hk' rfl
      exact .inl ⟨_, _, by omega, by simp only [passed_params] at this; omega, store_ok hf hr⟩
    · refine .inr ⟨?_, _, _, store_resolve_error hf hr⟩
      cases hp : s.params.wrap16 with
      | fault => rfl
      | wrap => exact absurd (Or.inr hp) hn
  · refine .inr ⟨?_, _, _, store_fetch_error hf⟩
    cases hp : s.params.wrap16 with
    | fault => rfl
    | wrap => exact absurd (Or.inr hp) hf

theorem wrap16_of_not_canFetch {len : Nat} {s : State} (h : ¬ CanFetch len s) : s.params.wrap16 = .fault := by
  cases hp : s.params.wrap16 with
  | fault => rfl
  | wrap => exact absurd (Or.inr hp) h

/-- All an instruction can do: one of the four effects, or AddressOverflow under WRAP16 = Fault. -/
theorem exec_cases (i : Instr) (s : State) :
    (∃ t, Effect i s t ∧ exec i s = .next t) ∨
    (s.params.wrap16 = .fault ∧ ∃ a b, exec i s = .fault (.addressOverflow a b)) := by
  have ofLoad : ∀ r o, loadTarget i = some r → i.length = 1 + operandBytes o → exec i s = finish (load r o s) →
      (∃ t, Effect i s t ∧ exec i s = .next t) ∨
      (s.params.wrap16 = .fault ∧ ∃ a b, exec i s = .fault (.addressOverflow a b)) := by
    intro r o hr hlen he
    rw [he]
    rcases load_cases r o s with ⟨v, k, h1, h2, h⟩ | ⟨hw, a, b, h⟩
    · exact .inl ⟨_, Effect.load r v k hr h1 h2, by rw [h, hlen]; rfl⟩
    · exact .inr ⟨hw, a, b, by rw [h]; rfl⟩
  have ofStore : ∀ r o, storeSource i = some r → i.length = 1 + operandBytes o → exec i s = finish (store r o s) →
      (∃ t, Effect i s t ∧ exec i s = .next t) ∨
      (s.params.wrap16 = .fault ∧ ∃ a b, exec i s = .fault (.addressOverflow a b)) := by
    intro r o hr hlen he
    rw [he]
    rcases store_cases r o s with ⟨ea, k, h1, h2, h⟩ | ⟨hw, a, b, h⟩
    · exact .inl ⟨_, Effect.store r ea k hr h1 h2, by rw [h, hlen]; rfl⟩
    · exact .inr ⟨hw, a, b, by rw [h]; rfl⟩
  have ofImmediate : ∀ r v, loadTarget i = some r → i.length = 2 → exec i s = finish (loadImmediate r v s) →
      (∃ t, Effect i s t ∧ exec i s = .next t) ∨
      (s.params.wrap16 = .fault ∧ ∃ a b, exec i s = .fault (.addressOverflow a b)) := by
    intro r v hr hlen he
    rw [he]
    by_cases hf : CanFetch 2 s
    · exact .inl ⟨_, Effect.load r v 2 hr (by omega) (by omega), by rw [loadImmediate_ok hf, hlen]; rfl⟩
    · exact .inr ⟨wrap16_of_not_canFetch hf, _, _, by rw [loadImmediate_error hf]; rfl⟩
  cases i with
  | ldaImm v => exact ofImmediate .a v rfl rfl rfl
  | ldaZp b => exact ofLoad .a (.zeroPage b) rfl rfl rfl
  | ldaZpX b => exact ofLoad .a (.zeroPageX b) rfl rfl rfl
  | ldaAbs w => exact ofLoad .a (.absolute w) rfl rfl rfl
  | ldaAbsX w => exact ofLoad .a (.absoluteX w) rfl rfl rfl
  | ldaAbsY w => exact ofLoad .a (.absoluteY w) rfl rfl rfl
  | ldaIndX b => exact ofLoad .a (.indirectX b) rfl rfl rfl
  | ldaIndY b => exact ofLoad .a (.indirectY b) rfl rfl rfl
  | ldxImm v => exact ofImmediate .x v rfl rfl rfl
  | ldxZp b => exact ofLoad .x (.zeroPage b) rfl rfl rfl
  | ldxZpY b => exact ofLoad .x (.zeroPageY b) rfl rfl rfl
  | ldxAbs w => exact ofLoad .x (.absolute w) rfl rfl rfl
  | ldxAbsY w => exact ofLoad .x (.absoluteY w) rfl rfl rfl
  | ldyImm v => exact ofImmediate .y v rfl rfl rfl
  | ldyZp b => exact ofLoad .y (.zeroPage b) rfl rfl rfl
  | ldyZpX b => exact ofLoad .y (.zeroPageX b) rfl rfl rfl
  | ldyAbs w => exact ofLoad .y (.absolute w) rfl rfl rfl
  | ldyAbsX w => exact ofLoad .y (.absoluteX w) rfl rfl rfl
  | staZp b => exact ofStore .a (.zeroPage b) rfl rfl rfl
  | staZpX b => exact ofStore .a (.zeroPageX b) rfl rfl rfl
  | staAbs w => exact ofStore .a (.absolute w) rfl rfl rfl
  | staAbsX w => exact ofStore .a (.absoluteX w) rfl rfl rfl
  | staAbsY w => exact ofStore .a (.absoluteY w) rfl rfl rfl
  | staIndX b => exact ofStore .a (.indirectX b) rfl rfl rfl
  | staIndY b => exact ofStore .a (.indirectY b) rfl rfl rfl
  | stxZp b => exact ofStore .x (.zeroPage b) rfl rfl rfl
  | stxZpY b => exact ofStore .x (.zeroPageY b) rfl rfl rfl
  | stxAbs w => exact ofStore .x (.absolute w) rfl rfl rfl
  | styZp b => exact ofStore .y (.zeroPage b) rfl rfl rfl
  | styZpX b => exact ofStore .y (.zeroPageX b) rfl rfl rfl
  | styAbs w => exact ofStore .y (.absolute w) rfl rfl rfl
  | jsr target =>
    by_cases hf : CanFetch 3 s
    · exact .inl ⟨_, Effect.call target rfl, congrArg finish (jumpToSubroutine_ok hf)⟩
    · exact .inr ⟨wrap16_of_not_canFetch hf, _, _, congrArg finish (jumpToSubroutine_error hf)⟩
  | unhandled op =>
    by_cases hf : CanFetch 1 s
    · exact .inl ⟨_, Effect.report op rfl, congrArg finish (reportUnhandled_ok hf)⟩
    · exact .inr ⟨wrap16_of_not_canFetch hf, _, _, congrArg finish (reportUnhandled_error hf)⟩

end Sys2Proof.Machine
end

