-- ==== Sys2Proof/Laws/Step.lean ====
section
/-! SUPPORT. What one step can do: the core is stopped, or the instruction at PC has one of its effects, or it
raises AddressOverflow. -/
namespace Sys2Proof.Machine

theorem step_running {s : State} (h : Running s) : step s = exec (instrAt s) s := by
  simp only [step, show s.status = .running from h]

theorem step_faulted {s : State} {a : Addr} {b : Nat} (h : s.status = .faulted a b) :
    step s = .fault (.addressOverflow a b) := by
  simp only [step, h]

/-- All a step can do. -/
theorem step_cases (s : State) :
    (∃ a b, s.status = .faulted a b ∧ step s = .fault (.addressOverflow a b)) ∨
    (Running s ∧ ∃ t, Effect (instrAt s) s t ∧ step s = .next t) ∨
    (Running s ∧ s.params.wrap16 = .fault ∧ ∃ a b, step s = .fault (.addressOverflow a b)) := by
  cases hs : s.status with
  | faulted a b => exact .inl ⟨a, b, rfl, step_faulted hs⟩
  | running =>
    rcases exec_cases (instrAt s) s with ⟨t, he, h⟩ | ⟨hw, a, b, h⟩
    · exact .inr (.inl ⟨hs, t, he, by rw [step_running hs, h]⟩)
    · exact .inr (.inr ⟨hs, hw, a, b, by rw [step_running hs, h]⟩)

/-- A finished step ran a running core's instruction. -/
theorem step_next {s t : State} (h : step s = .next t) :
    Running s ∧ exec (instrAt s) s = .next t ∧ Effect (instrAt s) s t := by
  rcases step_cases s with ⟨a, b, _, h'⟩ | ⟨hr, t', he, h'⟩ | ⟨_, _, a, b, h'⟩
  · rw [h] at h'; exact nomatch h'
  · rw [h] at h'
    cases h'
    exact ⟨hr, by rw [← step_running hr, h], he⟩
  · rw [h] at h'; exact nomatch h'

/-- A run whose first step finishes goes on from there. -/
theorem run_succ (M : Host.Core) {s t : M.State} (n : Nat) (h : M.step s = .next t) :
    M.run (n + 1) s = M.run n t := by
  simp only [Host.Core.run, h]

/-- The same for this machine, in terms of `step`. -/
theorem core_run_succ {s t : State} (n : Nat) (h : step s = .next t) : core.run (n + 1) s = core.run n t :=
  run_succ core n h

end Sys2Proof.Machine
end

