-- ==== Sys2Proof/Laws/HostPort.lean ====
section
/-! SUPPORT. The rounds of the `execute` loop, one lemma per way a round can end, and that the cycle counter's
value changes nothing a step does but the counter itself. -/
namespace Sys2Proof.Machine

/-! ## The counter is written and never read by an instruction -/

/-- The state with `d` added to the counter. -/
def shift (d : Int) (s : State) : State := setRemaining (s.remaining + d) s

/-- A finished or stopped sequence with `d` added to the counter. -/
def shiftResult (d : Int) : Except Fault State → Except Fault State
  | .ok s    => .ok (shift d s)
  | .error f => .error f

theorem charge_shift (d : Int) (k : Nat) (s : State) : charge k (shift d s) = shift d (charge k s) := by
  simp only [charge, shift, setRemaining, State.mk.injEq, true_and, and_true]
  omega

theorem passed_shift (d : Int) (l k : Nat) (s : State) : passed l k (shift d s) = shift d (passed l k s) := by
  simp only [passed, shift, setRemaining, State.mk.injEq, true_and, and_true]
  omega

theorem advanceBy_shift (d : Int) (k : Nat) (hk : 1 ≤ k) (s : State) :
    advanceBy k (shift d s) = shiftResult d (advanceBy k s) := by
  by_cases h : CanFetch k s
  · have h' : CanFetch k (shift d s) := h
    rw [advanceBy_ok hk h, advanceBy_ok hk h', passed_shift]
    rfl
  · have h' : ¬ CanFetch k (shift d s) := h
    rw [advanceBy_error hk h, advanceBy_error hk h']
    rfl

/-- The resolver's answer does not depend on the counter. -/
theorem resolve_shift (d : Int) (o : Operand) (p : Purpose) (s : State) :
    resolve o p (shift d s) =
      match resolve o p s with
      | .ok (ea, t) => .ok (ea, shift d t)
      | .error f    => .error f := by
  cases o with
  | zeroPage b => rfl
  | zeroPageX b => exact congrArg (fun t => Except.ok (_, t)) (charge_shift d 1 s)
  | zeroPageY b => exact congrArg (fun t => Except.ok (_, t)) (charge_shift d 1 s)
  | absolute w => rfl
  | absoluteX w =>
    by_cases h : CanIndex w s.x s
    · simp only [resolve]
      rw [resolveAbsIndexed_ok p h]
      exact (resolveAbsIndexed_ok (s := shift d s) p h).trans
        (congrArg (fun t => Except.ok (_, t)) (charge_shift d _ s))
    · simp only [resolve]
      rw [resolveAbsIndexed_error p h]
      exact resolveAbsIndexed_error (s := shift d s) p h
  | absoluteY w =>
    by_cases h : CanIndex w s.y s
    · simp only [resolve]
      rw [resolveAbsIndexed_ok p h]
      exact (resolveAbsIndexed_ok (s := shift d s) p h).trans
        (congrArg (fun t => Except.ok (_, t)) (charge_shift d _ s))
    · simp only [resolve]
      rw [resolveAbsIndexed_error p h]
      exact resolveAbsIndexed_error (s := shift d s) p h
  | indirectX b =>
    simp only [resolve]
    rw [resolveIndirectX_ok b s]
    exact (resolveIndirectX_ok b (shift d s)).trans
      (congrArg (fun t => Except.ok (_, t)) (charge_shift d _ s))
  | indirectY b =>
    by_cases h : CanIndex (zpPointer b s) s.y s
    · simp only [resolve]
      rw [resolveIndirectY_ok p h]
      exact (resolveIndirectY_ok (s := shift d s) p h).trans
        (congrArg (fun t => Except.ok (_, t)) (charge_shift d _ s))
    · simp only [resolve]
      rw [resolveIndirectY_error p h]
      exact resolveIndirectY_error (s := shift d s) p h

theorem loadImmediate_shift (d : Int) (r : Reg) (v : Byte) (s : State) :
    loadImmediate r v (shift d s) = shiftResult d (loadImmediate r v s) := by
  rw [loadImmediate, loadImmediate, advanceBy_shift d 2 (by omega)]
  cases advanceBy 2 s with
  | error f => rfl
  | ok t => cases r <;> rfl

theorem load_shift (d : Int) (r : Reg) (o : Operand) (s : State) :
    load r o (shift d s) = shiftResult d (load r o s) := by
  rw [load, load, advanceBy_shift d _ (by omega)]
  cases advanceBy (1 + operandBytes o) s with
  | error f => rfl
  | ok t =>
    simp only [shiftResult, bind_ok, resolve_shift]
    cases resolve o .load t with
    | error f => rfl
    | ok q =>
      simp only [bind_ok, readByte, charge_shift]
      cases r <;> rfl

theorem store_shift (d : Int) (r : Reg) (o : Operand) (s : State) :
    store r o (shift d s) = shiftResult d (store r o s) := by
  rw [store, store, advanceBy_shift d _ (by omega)]
  cases advanceBy (1 + operandBytes o) s with
  | error f => rfl
  | ok t =>
    simp only [shiftResult, bind_ok, resolve_shift]
    cases resolve o .store t with
    | error f => rfl
    | ok q =>
      simp only [bind_ok, chargeIf_eq, writeByte]
      refine congrArg Except.ok ?_
      rw [← charge_shift, ← charge_shift]
      cases r <;> rfl

theorem jumpToSubroutine_shift (d : Int) (target : Addr) (s : State) :
    jumpToSubroutine target (shift d s) = shiftResult d (jumpToSubroutine target s) := by
  by_cases h : CanFetch 3 s
  · rw [jumpToSubroutine_ok h, jumpToSubroutine_ok (s := shift d s) h]
    simp only [shiftResult, calledState, shift, setRemaining, memWrite, Except.ok.injEq, State.mk.injEq,
      true_and, and_true]
    omega
  · rw [jumpToSubroutine_error h, jumpToSubroutine_error (s := shift d s) h]
    rfl

theorem reportUnhandled_shift (d : Int) (op : Byte) (s : State) :
    reportUnhandled op (shift d s) = shiftResult d (reportUnhandled op s) := by
  rw [reportUnhandled, reportUnhandled, advanceBy_shift d 1 (by omega)]
  cases advanceBy 1 s <;> rfl

/-- An outcome with `d` added to the counter of the next state. -/
def shiftOutcome (d : Int) : Host.Outcome State Fault Refusal → Host.Outcome State Fault Refusal
  | .next s    => .next (shift d s)
  | .fault f   => .fault f
  | .refused r => .refused r

theorem finish_shiftResult (d : Int) (x : Except Fault State) :
    finish (shiftResult d x) = shiftOutcome d (finish x) := by
  cases x <;> rfl

/-- No instruction reads the counter. -/
theorem exec_shift (d : Int) (i : Instr) (s : State) : exec i (shift d s) = shiftOutcome d (exec i s) := by
  cases i <;> refine Eq.trans (congrArg finish ?_) (finish_shiftResult d _) <;>
    first
    | exact load_shift d _ _ s
    | exact store_shift d _ _ s
    | exact loadImmediate_shift d _ _ s
    | exact jumpToSubroutine_shift d _ s
    | exact reportUnhandled_shift d _ s

theorem step_shift (d : Int) (s : State) : step (shift d s) = shiftOutcome d (step s) := by
  cases hs : s.status with
  | faulted a b => rw [step_faulted hs, step_faulted (s := shift d s) hs]; rfl
  | running =>
    rw [step_running hs, step_running (s := shift d s) hs]
    exact exec_shift d (instrAt s) s

theorem setRemaining_eq_shift (v : Int) (s : State) : setRemaining v s = shift (v - s.remaining) s := by
  simp only [shift, setRemaining, State.mk.injEq, true_and, and_true]
  omega

/-- A step from any counter value takes the same number of cycles. -/
theorem step_setRemaining {s t : State} (v : Int) (h : step s = .next t) :
    step (setRemaining v s) = .next (setRemaining (v - (s.remaining - t.remaining)) t) := by
  rw [setRemaining_eq_shift v s, step_shift, h]
  simp only [shiftOutcome, Host.Outcome.next.injEq, shift, setRemaining, State.mk.injEq, true_and, and_true]
  omega

theorem step_setRemaining_fault {s : State} {f : Fault} (v : Int) (h : step s = .fault f) :
    step (setRemaining v s) = .fault f := by
  rw [setRemaining_eq_shift v s, step_shift, h]
  rfl

/-! ## The rounds of the loop -/

variable {q fuel : Nat} {s t : State}

theorem executeLoop_done (h : ¬ 0 < s.remaining) :
    executeLoop q (fuel + 1) s = ⟨q - s.remaining, .ok, s⟩ := by
  simp only [executeLoop, h, if_false]

theorem executeLoop_halt {stop : ExecuteOutcome} (h : 0 < s.remaining) (hs : step s = .next t)
    (hh : haltOn s.params (memRead s s.pc) s.pc = some stop) :
    executeLoop q (fuel + 1) s = ⟨q - t.remaining, stop, t⟩ := by
  simp only [executeLoop, h, if_true, hs, hh]

theorem executeLoop_next (h : 0 < s.remaining) (hs : step s = .next t)
    (hh : haltOn s.params (memRead s s.pc) s.pc = none) :
    executeLoop q (fuel + 1) s = executeLoop q fuel t := by
  simp only [executeLoop, h, if_true, hs, hh]

theorem executeLoop_fault {a : Addr} {b : Nat} (h : 0 < s.remaining)
    (hs : step s = .fault (.addressOverflow a b)) :
    executeLoop q (fuel + 1) s = ⟨Config.faultUsed s.faults, .faulted, recordAddressOverflow a b s⟩ := by
  simp only [executeLoop, h, if_true, hs]

/-- Fuel beyond the counter's value changes nothing: every step takes at least one cycle. -/
theorem executeLoop_fuel : ∀ {fuel more : Nat} {s : State}, s.remaining ≤ fuel → fuel ≤ more →
    executeLoop q more s = executeLoop q fuel s
  | 0, more, s, h, _ => by
    cases more with
    | zero => rfl
    | succ m => exact executeLoop_done (by omega)
  | fuel + 1, 0, s, _, hm => by omega
  | fuel + 1, more + 1, s, h, hm => by
    by_cases h0 : 0 < s.remaining
    · rcases step_cases s with ⟨a, b, _, hs⟩ | ⟨_, t, he, hs⟩ | ⟨_, _, a, b, hs⟩
      · rw [executeLoop_fault h0 hs, executeLoop_fault h0 hs]
      · have := he.cycles
        cases hh : haltOn s.params (memRead s s.pc) s.pc with
        | none =>
          rw [executeLoop_next h0 hs hh, executeLoop_next h0 hs hh]
          exact executeLoop_fuel (by omega) (by omega)
        | some stop => rw [executeLoop_halt h0 hs hh, executeLoop_halt h0 hs hh]
      · rw [executeLoop_fault h0 hs, executeLoop_fault h0 hs]
    · rw [executeLoop_done h0, executeLoop_done h0]

/-- The request enters the count alone, and a faulting call's count not at all. -/
theorem executeLoop_request (q q' fuel : Nat) (s : State) :
    (executeLoop q fuel s).outcome = (executeLoop q' fuel s).outcome ∧
    (executeLoop q fuel s).state = (executeLoop q' fuel s).state ∧
    ((executeLoop q' fuel s).outcome ≠ .faulted →
      (executeLoop q fuel s).used = (q - q' : Int) + (executeLoop q' fuel s).used) := by
  induction fuel generalizing s with
  | zero => exact ⟨rfl, rfl, fun _ => by simp only [executeLoop]; omega⟩
  | succ f ih =>
    unfold executeLoop
    split
    · split
      · split
        · exact ⟨rfl, rfl, fun _ => by simp only; omega⟩
        · exact ih _
      · exact ⟨rfl, rfl, fun h => absurd rfl h⟩
      · exact ⟨rfl, rfl, fun _ => by simp only; omega⟩
    · exact ⟨rfl, rfl, fun _ => by simp only; omega⟩

theorem haltOn_cases (p : Params) (op : Byte) (addr : Addr) :
    haltOn p op addr = none ∨
      (p.illegalPolicy = .halt ∧ opcodeMap op = none ∧ haltOn p op addr = some (.invalidOpcode op addr)) := by
  unfold haltOn
  split
  · exact .inr ⟨‹_ ∧ _›.1, ‹_ ∧ _›.2, rfl⟩
  · exact .inl rfl

theorem hostExecute_running (k : Nat) (h : Running s) :
    hostExecute k s =
      ⟨(executeLoop k k (setRemaining k s)).used, (executeLoop k k (setRemaining k s)).outcome,
        setRemaining s.remaining (executeLoop k k (setRemaining k s)).state⟩ := by
  simp only [hostExecute, show s.status = .running from h]

theorem hostExecute_faulted {a : Addr} {b : Nat} (k : Nat) (h : s.status = .faulted a b) :
    hostExecute k s = ⟨0, .faulted, s⟩ := by
  simp only [hostExecute, h]

end Sys2Proof.Machine
end

