-- ==== Sys2Proof/Laws/PerInstr.lean ====
section
/-! SUPPORT. Facts about every instruction as syntax, one lemma per constructor of Instr. -/
namespace Sys2Proof.Laws

/-- The encoding of an instruction has the length R53 gives it, one to three bytes (R59). -/
def EncodedLength.Statement (i : Instr) : Prop :=
  (encode i).length = i.length ∧ 1 ≤ i.length ∧ i.length ≤ 3

theorem EncodedLength.ldaImm (v : Byte) : EncodedLength.Statement (.ldaImm v) :=
  ⟨rfl, by simp [Instr.length, Instr.pair, Mode.operandBytes], by simp [Instr.length, Instr.pair, Mode.operandBytes]⟩

theorem EncodedLength.ldaZp (b : Byte) : EncodedLength.Statement (.ldaZp b) :=
  ⟨rfl, by simp [Instr.length, Instr.pair, Mode.operandBytes], by simp [Instr.length, Instr.pair, Mode.operandBytes]⟩

theorem EncodedLength.ldaZpX (b : Byte) : EncodedLength.Statement (.ldaZpX b) :=
  ⟨rfl, by simp [Instr.length, Instr.pair, Mode.operandBytes], by simp [Instr.length, Instr.pair, Mode.operandBytes]⟩

theorem EncodedLength.ldaAbs (w : Addr) : EncodedLength.Statement (.ldaAbs w) :=
  ⟨rfl, by simp [Instr.length, Instr.pair, Mode.operandBytes], by simp [Instr.length, Instr.pair, Mode.operandBytes]⟩

theorem EncodedLength.ldaAbsX (w : Addr) : EncodedLength.Statement (.ldaAbsX w) :=
  ⟨rfl, by simp [Instr.length, Instr.pair, Mode.operandBytes], by simp [Instr.length, Instr.pair, Mode.operandBytes]⟩

theorem EncodedLength.ldaAbsY (w : Addr) : EncodedLength.Statement (.ldaAbsY w) :=
  ⟨rfl, by simp [Instr.length, Instr.pair, Mode.operandBytes], by simp [Instr.length, Instr.pair, Mode.operandBytes]⟩

theorem EncodedLength.ldaIndX (b : Byte) : EncodedLength.Statement (.ldaIndX b) :=
  ⟨rfl, by simp [Instr.length, Instr.pair, Mode.operandBytes], by simp [Instr.length, Instr.pair, Mode.operandBytes]⟩

theorem EncodedLength.ldaIndY (b : Byte) : EncodedLength.Statement (.ldaIndY b) :=
  ⟨rfl, by simp [Instr.length, Instr.pair, Mode.operandBytes], by simp [Instr.length, Instr.pair, Mode.operandBytes]⟩

theorem EncodedLength.ldxImm (v : Byte) : EncodedLength.Statement (.ldxImm v) :=
  ⟨rfl, by simp [Instr.length, Instr.pair, Mode.operandBytes], by simp [Instr.length, Instr.pair, Mode.operandBytes]⟩

theorem EncodedLength.ldxZp (b : Byte) : EncodedLength.Statement (.ldxZp b) :=
  ⟨rfl, by simp [Instr.length, Instr.pair, Mode.operandBytes], by simp [Instr.length, Instr.pair, Mode.operandBytes]⟩

theorem EncodedLength.ldxZpY (b : Byte) : EncodedLength.Statement (.ldxZpY b) :=
  ⟨rfl, by simp [Instr.length, Instr.pair, Mode.operandBytes], by simp [Instr.length, Instr.pair, Mode.operandBytes]⟩

theorem EncodedLength.ldxAbs (w : Addr) : EncodedLength.Statement (.ldxAbs w) :=
  ⟨rfl, by simp [Instr.length, Instr.pair, Mode.operandBytes], by simp [Instr.length, Instr.pair, Mode.operandBytes]⟩

theorem EncodedLength.ldxAbsY (w : Addr) : EncodedLength.Statement (.ldxAbsY w) :=
  ⟨rfl, by simp [Instr.length, Instr.pair, Mode.operandBytes], by simp [Instr.length, Instr.pair, Mode.operandBytes]⟩

theorem EncodedLength.ldyImm (v : Byte) : EncodedLength.Statement (.ldyImm v) :=
  ⟨rfl, by simp [Instr.length, Instr.pair, Mode.operandBytes], by simp [Instr.length, Instr.pair, Mode.operandBytes]⟩

theorem EncodedLength.ldyZp (b : Byte) : EncodedLength.Statement (.ldyZp b) :=
  ⟨rfl, by simp [Instr.length, Instr.pair, Mode.operandBytes], by simp [Instr.length, Instr.pair, Mode.operandBytes]⟩

theorem EncodedLength.ldyZpX (b : Byte) : EncodedLength.Statement (.ldyZpX b) :=
  ⟨rfl, by simp [Instr.length, Instr.pair, Mode.operandBytes], by simp [Instr.length, Instr.pair, Mode.operandBytes]⟩

theorem EncodedLength.ldyAbs (w : Addr) : EncodedLength.Statement (.ldyAbs w) :=
  ⟨rfl, by simp [Instr.length, Instr.pair, Mode.operandBytes], by simp [Instr.length, Instr.pair, Mode.operandBytes]⟩

theorem EncodedLength.ldyAbsX (w : Addr) : EncodedLength.Statement (.ldyAbsX w) :=
  ⟨rfl, by simp [Instr.length, Instr.pair, Mode.operandBytes], by simp [Instr.length, Instr.pair, Mode.operandBytes]⟩

theorem EncodedLength.staZp (b : Byte) : EncodedLength.Statement (.staZp b) :=
  ⟨rfl, by simp [Instr.length, Instr.pair, Mode.operandBytes], by simp [Instr.length, Instr.pair, Mode.operandBytes]⟩

theorem EncodedLength.staZpX (b : Byte) : EncodedLength.Statement (.staZpX b) :=
  ⟨rfl, by simp [Instr.length, Instr.pair, Mode.operandBytes], by simp [Instr.length, Instr.pair, Mode.operandBytes]⟩

theorem EncodedLength.staAbs (w : Addr) : EncodedLength.Statement (.staAbs w) :=
  ⟨rfl, by simp [Instr.length, Instr.pair, Mode.operandBytes], by simp [Instr.length, Instr.pair, Mode.operandBytes]⟩

theorem EncodedLength.staAbsX (w : Addr) : EncodedLength.Statement (.staAbsX w) :=
  ⟨rfl, by simp [Instr.length, Instr.pair, Mode.operandBytes], by simp [Instr.length, Instr.pair, Mode.operandBytes]⟩

theorem EncodedLength.staAbsY (w : Addr) : EncodedLength.Statement (.staAbsY w) :=
  ⟨rfl, by simp [Instr.length, Instr.pair, Mode.operandBytes], by simp [Instr.length, Instr.pair, Mode.operandBytes]⟩

theorem EncodedLength.staIndX (b : Byte) : EncodedLength.Statement (.staIndX b) :=
  ⟨rfl, by simp [Instr.length, Instr.pair, Mode.operandBytes], by simp [Instr.length, Instr.pair, Mode.operandBytes]⟩

theorem EncodedLength.staIndY (b : Byte) : EncodedLength.Statement (.staIndY b) :=
  ⟨rfl, by simp [Instr.length, Instr.pair, Mode.operandBytes], by simp [Instr.length, Instr.pair, Mode.operandBytes]⟩

theorem EncodedLength.stxZp (b : Byte) : EncodedLength.Statement (.stxZp b) :=
  ⟨rfl, by simp [Instr.length, Instr.pair, Mode.operandBytes], by simp [Instr.length, Instr.pair, Mode.operandBytes]⟩

theorem EncodedLength.stxZpY (b : Byte) : EncodedLength.Statement (.stxZpY b) :=
  ⟨rfl, by simp [Instr.length, Instr.pair, Mode.operandBytes], by simp [Instr.length, Instr.pair, Mode.operandBytes]⟩

theorem EncodedLength.stxAbs (w : Addr) : EncodedLength.Statement (.stxAbs w) :=
  ⟨rfl, by simp [Instr.length, Instr.pair, Mode.operandBytes], by simp [Instr.length, Instr.pair, Mode.operandBytes]⟩

theorem EncodedLength.styZp (b : Byte) : EncodedLength.Statement (.styZp b) :=
  ⟨rfl, by simp [Instr.length, Instr.pair, Mode.operandBytes], by simp [Instr.length, Instr.pair, Mode.operandBytes]⟩

theorem EncodedLength.styZpX (b : Byte) : EncodedLength.Statement (.styZpX b) :=
  ⟨rfl, by simp [Instr.length, Instr.pair, Mode.operandBytes], by simp [Instr.length, Instr.pair, Mode.operandBytes]⟩

theorem EncodedLength.styAbs (w : Addr) : EncodedLength.Statement (.styAbs w) :=
  ⟨rfl, by simp [Instr.length, Instr.pair, Mode.operandBytes], by simp [Instr.length, Instr.pair, Mode.operandBytes]⟩

theorem EncodedLength.jsr (target : Addr) : EncodedLength.Statement (.jsr target) :=
  ⟨rfl, by simp [Instr.length, Instr.pair, Mode.operandBytes], by simp [Instr.length, Instr.pair, Mode.operandBytes]⟩

theorem EncodedLength.unhandled (op : Byte) : EncodedLength.Statement (.unhandled op) :=
  ⟨rfl, by simp [Instr.length, Instr.pair], by simp [Instr.length, Instr.pair]⟩

end Sys2Proof.Laws
end

