-- ==== Sys2Proof/Tests/Slice0.lean ====
section
/-! SUPPORT. Tests: the expected values come from spec/30_encoding.md R56 and R60 (words) and spec/95_test_vectors.md
(vectors, named in each theorem). After them, one witness for the hypotheses of each statement. -/
namespace Sys2Proof.Tests

open Sys2Proof.Machine

/-! ## Helpers -/

/-- The next state of an outcome. -/
def nextOf : Host.Outcome State Fault Refusal → Option State
  | .next s => some s
  | .fault _ => none
  | .refused _ => none

/-- The fault of an outcome. -/
def faultOf : Host.Outcome State Fault Refusal → Option Fault
  | .next _ => none
  | .fault f => some f
  | .refused _ => none

/-- The state after reset with the given bytes at `pc`. -/
def program (pc : Addr) (bytes : List Byte) : State := pokeBytes bytes pc { State.reset with pc := pc }

/-- The fields the vectors show after a step: registers, Z, N, PC and the cycles used. -/
structure Shown where
  a    : Byte
  x    : Byte
  y    : Byte
  z    : Bool
  n    : Bool
  pc   : Addr
  used : Int
  deriving DecidableEq

/-- One step of `s`, shown. -/
def stepShown (s : State) : Option Shown :=
  (nextOf (step s)).map fun t => ⟨t.a, t.x, t.y, t.z, t.n, t.pc, s.remaining - t.remaining⟩

/-- One step of `s`: a memory cell after it, and the cycles used. -/
def stepCell (s : State) (addr : Addr) : Option (Byte × Int) :=
  (nextOf (step s)).map fun t => (memRead t addr, s.remaining - t.remaining)

/-- The state with parameters at other values than the defaults. -/
def withParams (p : Params) (s : State) : State := { s with params := p }

def wrapParams : Params := { Params.default with wrap16 := .wrap }
def indexFFParams : Params := { Params.default with pageCrossTest := .indexFF }
def conditionalParams : Params := { Params.default with storeIndyFixup := .conditional }
def zeroPageParams : Params := { Params.default with zpPtrHi := .zeroPage }
def haltParams : Params := { Params.default with illegalPolicy := .halt }

/-! ## Decode: every row of R56, and Unhandled bytes of R58 -/

theorem test_decode_ldaImm : decode [0xA9, 0x84] = .ok (.ldaImm 0x84, []) := by decide
theorem test_decode_ldaZp : decode [0xA5, 0x84] = .ok (.ldaZp 0x84, []) := by decide
theorem test_decode_ldaZpX : decode [0xB5, 0x84] = .ok (.ldaZpX 0x84, []) := by decide
theorem test_decode_ldaAbs : decode [0xAD, 0x34, 0x12] = .ok (.ldaAbs 0x1234, []) := by decide
theorem test_decode_ldaAbsX : decode [0xBD, 0x34, 0x12] = .ok (.ldaAbsX 0x1234, []) := by decide
theorem test_decode_ldaAbsY : decode [0xB9, 0x34, 0x12] = .ok (.ldaAbsY 0x1234, []) := by decide
theorem test_decode_ldaIndX : decode [0xA1, 0x84] = .ok (.ldaIndX 0x84, []) := by decide
theorem test_decode_ldaIndY : decode [0xB1, 0x84] = .ok (.ldaIndY 0x84, []) := by decide
theorem test_decode_ldxImm : decode [0xA2, 0x84] = .ok (.ldxImm 0x84, []) := by decide
theorem test_decode_ldxZp : decode [0xA6, 0x84] = .ok (.ldxZp 0x84, []) := by decide
theorem test_decode_ldxZpY : decode [0xB6, 0x84] = .ok (.ldxZpY 0x84, []) := by decide
theorem test_decode_ldxAbs : decode [0xAE, 0x34, 0x12] = .ok (.ldxAbs 0x1234, []) := by decide
theorem test_decode_ldxAbsY : decode [0xBE, 0x34, 0x12] = .ok (.ldxAbsY 0x1234, []) := by decide
theorem test_decode_ldyImm : decode [0xA0, 0x84] = .ok (.ldyImm 0x84, []) := by decide
theorem test_decode_ldyZp : decode [0xA4, 0x84] = .ok (.ldyZp 0x84, []) := by decide
theorem test_decode_ldyZpX : decode [0xB4, 0x84] = .ok (.ldyZpX 0x84, []) := by decide
theorem test_decode_ldyAbs : decode [0xAC, 0x34, 0x12] = .ok (.ldyAbs 0x1234, []) := by decide
theorem test_decode_ldyAbsX : decode [0xBC, 0x34, 0x12] = .ok (.ldyAbsX 0x1234, []) := by decide
theorem test_decode_staZp : decode [0x85, 0x84] = .ok (.staZp 0x84, []) := by decide
theorem test_decode_staZpX : decode [0x95, 0x84] = .ok (.staZpX 0x84, []) := by decide
theorem test_decode_staAbs : decode [0x8D, 0x34, 0x12] = .ok (.staAbs 0x1234, []) := by decide
theorem test_decode_staAbsX : decode [0x9D, 0x34, 0x12] = .ok (.staAbsX 0x1234, []) := by decide
theorem test_decode_staAbsY : decode [0x99, 0x34, 0x12] = .ok (.staAbsY 0x1234, []) := by decide
theorem test_decode_staIndX : decode [0x81, 0x84] = .ok (.staIndX 0x84, []) := by decide
theorem test_decode_staIndY : decode [0x91, 0x84] = .ok (.staIndY 0x84, []) := by decide
theorem test_decode_stxZp : decode [0x86, 0x84] = .ok (.stxZp 0x84, []) := by decide
theorem test_decode_stxZpY : decode [0x96, 0x84] = .ok (.stxZpY 0x84, []) := by decide
theorem test_decode_stxAbs : decode [0x8E, 0x34, 0x12] = .ok (.stxAbs 0x1234, []) := by decide
theorem test_decode_styZp : decode [0x84, 0x84] = .ok (.styZp 0x84, []) := by decide
theorem test_decode_styZpX : decode [0x94, 0x84] = .ok (.styZpX 0x84, []) := by decide
theorem test_decode_styAbs : decode [0x8C, 0x34, 0x12] = .ok (.styAbs 0x1234, []) := by decide
theorem test_decode_jsr : decode [0x20, 0x34, 0x12] = .ok (.jsr 0x1234, []) := by decide
theorem test_decode_unhandled : decode [0x60, 0xA9] = .ok (.unhandled 0x60, [0xA9]) := by decide
theorem test_decode_neighbours : (List.map (fun op => decode [op, 0, 0]) [0x00, 0x1F, 0x21, 0x80, 0x8F, 0xBF, 0xFF]) =
    (List.map (fun op => .ok (.unhandled op, [0, 0])) [0x00, 0x1F, 0x21, 0x80, 0x8F, 0xBF, 0xFF]) := by decide
theorem test_decode_empty : decode [] = .error .noBytes := by decide
theorem test_decode_truncated : decode [0xAD, 0x34] = .error (.truncated 0xAD) := by decide
theorem test_decode_table_word : decodeTableWord 16 0x84A9 = some (.ldaImm 0x84) := by decide
theorem test_decode_table_word_operand_bits_zero : decodeTableWord 8 0xFFFF20 = some (.jsr 0x0000) := by decide
theorem test_encode_jsr : encode (.jsr 0x4000) = [0x20, 0x00, 0x40] := by decide
theorem test_unhandled_count :
    ((List.range 256).filter fun k => isUnhandledByte (BitVec.ofNat 8 k)).length = 224 := by rfl

/-! ## WellFormed refuses an `unhandled` term whose byte is in the table -/

theorem test_wellFormed_unhandled_lda : WellFormed (.unhandled 0xA9) = false := by decide
theorem test_wellFormed_unhandled_jsr : WellFormed (.unhandled 0x20) = false := by decide
theorem test_wellFormed_unhandled_rts : WellFormed (.unhandled 0x60) = true := by decide

/-! ## Loads: vectors of 95_test_vectors.md section 3 -/

theorem test_W1_step_after_reset : stepShown (State.reset.withFetchWord 16 0x84A9) =
    some ⟨0x84, 0, 0, false, true, 0xFFFE, 2⟩ := by decide
theorem test_L1 : stepShown (program 0x0200 [0xA9, 0x00]) = some ⟨0x00, 0, 0, true, false, 0x0202, 2⟩ := by decide
theorem test_L3 : (nextOf (step { program 0x0200 [0xA9, 0x7F] with
      c := true, i := true, d := true, b := true, v := true })).map
      (fun t => (t.a, t.z, t.n, [t.c, t.i, t.d, t.b, t.v])) =
    some (0x7F, false, false, [true, true, true, true, true]) := by decide
theorem test_L4 : stepShown (memWrite 0x007F 0x11 (memWrite 0x017F 0x22
      { program 0x0200 [0xB5, 0x80] with x := 0xFF })) =
    some ⟨0x11, 0xFF, 0, false, false, 0x0202, 4⟩ := by decide
theorem test_L5 : stepShown (memWrite 0x4501 0x01 { program 0x0200 [0xBD, 0x02, 0x44] with x := 0xFF }) =
    some ⟨0x01, 0xFF, 0, false, false, 0x0203, 5⟩ := by decide
theorem test_L7b : stepShown (withParams indexFFParams
      (memWrite 0x4500 0x05 { program 0x0200 [0xBD, 0xFF, 0x44] with x := 0x01 })) =
    some ⟨0x05, 0x01, 0, false, false, 0x0203, 4⟩ := by decide
theorem test_L8b : stepShown (withParams indexFFParams
      (memWrite 0x44FF 0x06 { program 0x0200 [0xBD, 0x00, 0x44] with x := 0xFF })) =
    some ⟨0x06, 0xFF, 0, false, false, 0x0203, 5⟩ := by decide
theorem test_L9 : faultOf (step { program 0x0200 [0xBD, 0xFF, 0xFF] with x := 0x01 }) =
    some (.addressOverflow 0xFFFF 1) := by decide
theorem test_L9b : stepShown (withParams wrapParams
      (memWrite 0x0000 0x33 { program 0x0200 [0xBD, 0xFF, 0xFF] with x := 0x01 })) =
    some ⟨0x33, 0x01, 0, false, false, 0x0203, 5⟩ := by decide
theorem test_L10 : stepShown (pokeBytes [0x00, 0x30] 0x0004 (memWrite 0x3000 0x44
      { program 0x0200 [0xA1, 0xF0] with x := 0x14 })) =
    some ⟨0x44, 0x14, 0, false, false, 0x0202, 6⟩ := by decide
/-- The memory of L11 and L11b: the pointer's high byte is at 0x0100 or at 0x0000. -/
def pointerAtPageEnd : State :=
  pokeBytes [0x34, 0x12] 0x00FF (memWrite 0x0000 0x56 (memWrite 0x1234 0xA1 (memWrite 0x5634 0xB2
    (program 0x0200 [0xA1, 0xFF]))))
theorem test_L11 : stepShown pointerAtPageEnd = some ⟨0xA1, 0, 0, false, true, 0x0202, 6⟩ := by decide
theorem test_L11b : stepShown (withParams zeroPageParams pointerAtPageEnd) =
    some ⟨0xB2, 0, 0, false, true, 0x0202, 6⟩ := by decide
theorem test_L12 : stepShown (pokeBytes [0xFF, 0x44] 0x0010 (memWrite 0x4500 0x08
      { program 0x0200 [0xB1, 0x10] with y := 0x01 })) =
    some ⟨0x08, 0, 0x01, false, false, 0x0202, 6⟩ := by decide
theorem test_L12b : stepShown (pokeBytes [0x00, 0x44] 0x0010 (memWrite 0x4401 0x09
      { program 0x0200 [0xB1, 0x10] with y := 0x01 })) =
    some ⟨0x09, 0, 0x01, false, false, 0x0202, 5⟩ := by decide
theorem test_L13 : faultOf (step (pokeBytes [0xF0, 0xFF] 0x0010
      { program 0x0200 [0xB1, 0x10] with y := 0x20 })) = some (.addressOverflow 0xFFF0 32) := by decide
theorem test_L14 : stepShown (memWrite 0x0002 0xF0 { program 0x0200 [0xB6, 0xFD] with y := 0x05 }) =
    some ⟨0, 0xF0, 0x05, false, true, 0x0202, 4⟩ := by decide
theorem test_L15 : stepShown { program 0x0200 [0xBC, 0x34, 0x12] with x := 0x10 } =
    some ⟨0, 0x10, 0x00, true, false, 0x0203, 4⟩ := by decide
theorem test_L16 : faultOf (step (program 0xFFFE [0xA9, 0x5A])) = some (.addressOverflow 0xFFFF 1) := by decide
theorem test_L16b : stepShown (withParams wrapParams (program 0xFFFE [0xA9, 0x5A])) =
    some ⟨0x5A, 0, 0, false, false, 0x0000, 2⟩ := by decide
theorem test_L17 : stepShown { program 0x0200 [0xA0, 0x00] with a := 0x12, x := 0x34 } =
    some ⟨0x12, 0x34, 0x00, true, false, 0x0202, 2⟩ := by decide
/-- 95_test_vectors.md P1, step 4: LDX reads the word operand low byte first. -/
theorem test_P1_ldx : stepShown (memWrite 0x0200 0x42 (program 0x4005 [0xAE, 0x00, 0x02])) =
    some ⟨0, 0x42, 0, false, false, 0x4008, 4⟩ := by decide

/-! Forms without a vector: expected by hand from 42_load.md R87, R95, R98, R100, R102 and P5. -/

theorem test_lda_zp : stepShown (memWrite 0x00FF 0x80 (program 0x0200 [0xA5, 0xFF])) =
    some ⟨0x80, 0, 0, false, true, 0x0202, 3⟩ := by decide
/-- P5, step 2, under HighByte. -/
theorem test_P5_lda_absY : stepShown (memWrite 0x4500 0xAB { program 0x0202 [0xB9, 0xFF, 0x44] with y := 0x01 }) =
    some ⟨0xAB, 0, 0x01, false, true, 0x0205, 5⟩ := by decide
theorem test_ldx_zp : stepShown (memWrite 0x0042 0x07 (program 0x0200 [0xA6, 0x42])) =
    some ⟨0, 0x07, 0, false, false, 0x0202, 3⟩ := by decide
theorem test_ldx_absY : stepShown (memWrite 0x4403 0x80 { program 0x0200 [0xBE, 0x02, 0x44] with
      x := 0x55, y := 0x01 }) = some ⟨0, 0x80, 0x01, false, true, 0x0203, 4⟩ := by decide
theorem test_ldy_zp : stepShown (memWrite 0x0042 0x07 (program 0x0200 [0xA4, 0x42])) =
    some ⟨0, 0, 0x07, false, false, 0x0202, 3⟩ := by decide
theorem test_ldy_abs : stepShown (memWrite 0x1234 0x07 (program 0x0200 [0xAC, 0x34, 0x12])) =
    some ⟨0, 0, 0x07, false, false, 0x0203, 4⟩ := by decide

/-! ## Stores: vectors of section 4 -/

theorem test_S1 : (nextOf (step (memWrite 0x0042 0x99 { program 0x0200 [0x85, 0x42] with
      c := true, i := true, d := true, b := true, v := true, n := true }))).map
      (fun t => (memRead t 0x0042, t.z, t.n, t.c, t.v, t.remaining)) =
    some (0x00, false, true, true, true, -3) := by decide
theorem test_S2 : stepCell { program 0x0200 [0x9D, 0x02, 0x44] with a := 0x5A, x := 0x01 } 0x4403 =
    some (0x5A, 5) := by decide
theorem test_S3 : stepCell (pokeBytes [0x00, 0x44] 0x0010
      { program 0x0200 [0x91, 0x10] with a := 0x5A, y := 0x01 }) 0x4401 = some (0x5A, 6) := by decide
theorem test_S3b : stepCell (withParams conditionalParams (pokeBytes [0x00, 0x44] 0x0010
      { program 0x0200 [0x91, 0x10] with a := 0x5A, y := 0x01 })) 0x4401 = some (0x5A, 5) := by decide
theorem test_S3d : stepCell (withParams conditionalParams (pokeBytes [0xFF, 0x44] 0x0010
      { program 0x0200 [0x91, 0x10] with a := 0x5A, y := 0x01 })) 0x4500 = some (0x5A, 6) := by decide
theorem test_S4 : stepCell { program 0x0200 [0x96, 0x80] with x := 0xC7, y := 0x90 } 0x0010 =
    some (0xC7, 4) := by decide
theorem test_S5 : stepCell { program 0x0200 [0x8C, 0x00, 0x30] with y := 0x3C } 0x3000 =
    some (0x3C, 4) := by decide
theorem test_S6 : faultOf (step { program 0x0200 [0x9D, 0xFF, 0xFF] with a := 0x77, x := 0x01 }) =
    some (.addressOverflow 0xFFFF 1) := by decide
theorem test_S6b : stepCell (withParams wrapParams
      { program 0x0200 [0x9D, 0xFF, 0xFF] with a := 0x77, x := 0x01 }) 0x0000 = some (0x77, 5) := by decide
theorem test_S8 : stepCell (pokeBytes [0xFF, 0x00] 0x0024
      { program 0x0200 [0x81, 0x20] with a := 0xEE, x := 0x04 }) 0x00FF = some (0xEE, 6) := by decide
theorem test_S9 : stepCell { program 0x0200 [0x94, 0x80] with y := 0x81, x := 0xFF } 0x007F =
    some (0x81, 4) := by decide

/-! Forms without a vector: expected by hand from 43_store.md R107, R110, R113, R115, R116. -/

theorem test_sta_zpX : stepCell { program 0x0200 [0x95, 0x80] with a := 0x21, x := 0xFF } 0x007F =
    some (0x21, 4) := by decide
theorem test_sta_absY : stepCell { program 0x0200 [0x99, 0x02, 0x44] with a := 0x21, x := 7, y := 0x01 } 0x4403 =
    some (0x21, 5) := by decide
theorem test_stx_zp : stepCell { program 0x0200 [0x86, 0x42] with x := 0x21 } 0x0042 = some (0x21, 3) := by decide
theorem test_stx_abs : stepCell { program 0x0200 [0x8E, 0x34, 0x12] with x := 0x21 } 0x1234 =
    some (0x21, 4) := by decide
theorem test_sty_zp : stepCell { program 0x0200 [0x84, 0x42] with y := 0x21 } 0x0042 = some (0x21, 3) := by decide

/-! ## JSR: vectors of section 5 -/

theorem test_J1 : (nextOf (step (program 0xFFFC [0x20, 0x00, 0x40]))).map
      (fun t => (t.pc, memRead t 0x0100, memRead t 0x0101, t.remaining)) =
    some (0x4000, 0xFE, 0xFF, -6) := by rfl
theorem test_J1_sp : (nextOf (step (program 0xFFFC [0x20, 0x00, 0x40]))).map (fun t => t.sp) =
    some (Config.jsrSpNext 0x0100) := by rfl
theorem test_J4 : (nextOf (step { program 0x0300 [0x20, 0x00, 0x05] with sp := 0x02FF })).map
      (fun t => (t.pc, memRead t 0x01FF, memRead t 0x0200, t.remaining)) =
    some (0x0500, 0x02, 0x03, -6) := by rfl
theorem test_J6 : faultOf (step (program 0xFFFD [0x20, 0x00, 0x05])) =
    some (.addressOverflow 0xFFFF 1) := by decide

/-! ## Unhandled, dispatch and reset: vectors of sections 6 and 7 -/

theorem test_U1 : (nextOf (step (program 0x0200 [0x60]))).map (fun t => (t.diag, t.pc, t.remaining)) =
    some ([⟨0x60, 0x0200⟩], 0x0201, -1) := by decide
theorem test_U3 : (fun r : ExecuteResult => (r.used, r.outcome, r.state.diag, r.state.a, r.state.pc))
      (hostExecute 5 (withParams haltParams (program 0x0200 [0x60, 0xA9, 0x01]))) =
    (1, .invalidOpcode 0x60 0x0200, [⟨0x60, 0x0200⟩], 0x00, 0x0201) := by decide
theorem test_U4 : faultOf (step (program 0xFFFF [0x00])) = some (.addressOverflow 0xFFFF 1) := by decide
theorem test_U4b : (nextOf (step (withParams wrapParams (program 0xFFFF [0x00])))).map (fun t => (t.diag, t.pc)) =
    some ([⟨0x00, 0xFFFF⟩], 0x0000) := by decide
theorem test_E2 : (fun r : ExecuteResult => (r.used, r.outcome, r.state.a, r.state.pc))
      (hostExecute 1 (program 0x0200 [0xA9, 0x84])) = (2, .ok, 0x84, 0x0202) := by decide
theorem test_E3 : (fun r : ExecuteResult => (r.used, r.outcome, r.state.a, r.state.pc))
      (hostExecute 5 (program 0x0200 [0xAD, 0x00, 0x40, 0xA9, 0x01])) = (6, .ok, 0x01, 0x0205) := by decide
theorem test_T1 : hostReset { State.reset with
      a := 1, pc := 2, n := true, mem := [(3, 4)], status := .faulted 0xFFFF 1, diag := [⟨0, 0⟩] } =
    { State.reset with diag := [⟨0, 0⟩] } := by decide
theorem test_memory_write_unlisted_value : Memory.write [(5, 7)] 5 unlistedByte = [] := by decide
theorem test_memory_wf_refuses_listed_zero : Memory.wf [(5, 0x00)] = false := by decide
theorem test_memory_wf_refuses_disorder : Memory.wf [(6, 1), (5, 1)] = false := by decide

theorem test_E5 : (fun r : ExecuteResult => (r.used, r.outcome, r.state.a, r.state.x, r.state.y, r.state.pc))
      (hostExecute 6 (program 0x0200 [0xA9, 0x01, 0xA2, 0x02, 0xA0, 0x03])) =
    (6, .ok, 0x01, 0x02, 0x03, 0x0206) := by rfl

/-! ## Witnesses for the hypotheses of the statements -/

/-- The state after reset with PC at an address. -/
def atPc (pc : Addr) : State := { State.reset with pc := pc }

/-- A state no reset leaves: a listed cell, a reported byte, flags set. -/
def busyState : State := { program 0x0200 [0x60, 0xA9, 0x01] with
  a := 0x5A, x := 0x01, y := 0x20, c := true, n := true, diag := [⟨0x60, 0x0100⟩] }

theorem witness_StateInv : StateInv State.reset ∧ StateInv busyState := by
  unfold StateInv; decide

theorem witness_StepKeepsInvariant : StateInv busyState ∧ ∃ t, step busyState = .next t :=
  ⟨witness_StateInv.2, _, rfl⟩

theorem witness_DecodeOfEncodeIsInstruction :
    WellFormed (.unhandled 0x60) = true ∧ WellFormed (.jsr 0xFFFF) = true := by decide

theorem witness_EncodeOfDecodeIsBytes : decode [0x8D, 0x80, 0x44, 0x60] = .ok (.staAbs 0x4480, [0x60]) := by decide

theorem witness_StepRunsDecodedInstruction :
    Running busyState ∧ decode (instrBytes busyState) = .ok (.unhandled 0x60, [0xA9, 0x01]) :=
  ⟨rfl, by decide⟩

theorem witness_StepIsSpecLoopBody : Running (program 0x0200 [0xB1, 0x10]) := rfl

theorem witness_PlacedInstructionRunsNext :
    Running busyState ∧ busyState.mem.wf = true ∧ decodeTableWord 24 0x4480BD = some (.ldaAbsX 0x4480) :=
  ⟨rfl, by decide, by decide⟩

/-- The three clauses at their boundaries: 0xFFFF and 0x10000. -/
theorem witness_Add16FollowsWrapParameter :
    (0xFF ≤ 0xFF ∧ (0xFF00 : Addr).toNat + 0xFF ≤ 0xFFFF) ∧
    (0xFFFF < (0xFF01 : Addr).toNat + 0xFF ∧ Params.default.wrap16 = .fault ∧ wrapParams.wrap16 = .wrap) := by decide

theorem witness_PageCrossFollowsTestParameter :
    Params.default.pageCrossTest = .highByte ∧ indexFFParams.pageCrossTest = .indexFF := by decide

theorem witness_ZeroPagePointerRead :
    State.reset.params.zpPtrHi = .linear ∧
    (withParams zeroPageParams State.reset).params.zpPtrHi = .zeroPage := by decide

theorem witness_WordsAreLittleEndian :
    busyState.mem.wf = true ∧ (0xFFFE : Addr).toNat + 1 ≤ 0xFFFF := by decide

/-- ImmediateLoads, ZeroPageLoads, ZeroPageIndexedLoads, IndirectXLoad and the stores of two bytes: the last PC
that fetches, the first that does not, and the last PC under Wrap. -/
theorem witness_CanFetch_two :
    CanFetch 2 (atPc 0xFFFD) ∧ ¬ CanFetch 2 (atPc 0xFFFE) ∧ CanFetch 2 (withParams wrapParams (atPc 0xFFFF)) := by
  unfold CanFetch; decide

/-- AbsoluteLoads, AbsoluteStores, SubroutineCall. -/
theorem witness_CanFetch_three :
    CanFetch 3 (atPc 0xFFFC) ∧ ¬ CanFetch 3 (atPc 0xFFFD) ∧ CanFetch 3 (withParams wrapParams (atPc 0xFFFF)) := by
  unfold CanFetch; decide

/-- UnhandledIsReported. -/
theorem witness_UnhandledIsReported :
    isUnhandledByte 0x60 = true ∧ CanFetch 1 (atPc 0xFFFE) ∧ ¬ CanFetch 1 (atPc 0xFFFF) ∧
    CanFetch 1 (withParams wrapParams (atPc 0xFFFF)) := by
  unfold CanFetch; decide

/-- AbsoluteIndexedLoads and AbsoluteIndexedStores: the last base that X = Y = 0xFF fits, and the first it does
not. -/
def indexed (p : Params) : State := withParams p { atPc 0xFFFC with x := 0xFF, y := 0xFF }

theorem witness_AbsoluteIndexed :
    CanFetch 3 (indexed Params.default) ∧
    CanIndex 0xFF00 (indexed Params.default).x (indexed Params.default) ∧
    ¬ CanIndex 0xFF01 (indexed Params.default).x (indexed Params.default) ∧
    CanIndex 0xFF00 (indexed Params.default).y (indexed Params.default) ∧
    ¬ CanIndex 0xFF01 (indexed Params.default).y (indexed Params.default) ∧
    CanIndex 0xFFFF (indexed wrapParams).x (indexed wrapParams) ∧
    (indexed Params.default).mem.wf = true := by
  unfold CanFetch CanIndex; decide

/-- IndirectYLoad and IndirectYStore: the pointers 0xFFDF and 0xFFE0 with Y = 0x20, under both values of
STORE_INDY_FIXUP. -/
def pointing (lo : Byte) : State := pokeBytes [lo, 0xFF] 0x0010 { atPc 0xFFFD with y := 0x20 }

theorem witness_IndirectY :
    CanFetch 2 (pointing 0xDF) ∧ CanIndex (zpPointer 0x10 (pointing 0xDF)) (pointing 0xDF).y (pointing 0xDF) ∧
    CanFetch 2 (pointing 0xE0) ∧ ¬ CanIndex (zpPointer 0x10 (pointing 0xE0)) (pointing 0xE0).y (pointing 0xE0) ∧
    (pointing 0xDF).mem.wf = true ∧ (pointing 0xDF).params.storeIndyFixup = .always := by
  unfold CanFetch CanIndex; decide

theorem witness_IndirectYStore_conditional :
    (withParams conditionalParams (pointing 0xDF)).params.storeIndyFixup = .conditional ∧
    (withParams conditionalParams (pointing 0xDF)).mem.wf = true ∧
    CanFetch 2 (withParams conditionalParams (pointing 0xDF)) ∧
    CanIndex (zpPointer 0x10 (withParams conditionalParams (pointing 0xDF))) 0x20
      (withParams conditionalParams (pointing 0xDF)) := by
  unfold CanFetch CanIndex; decide

/-- ZeroPageStores, ZeroPageIndexedStores, AbsoluteStores, IndirectXStore, SubroutineCall and
HostPokesAndPeeks. -/
theorem witness_stores : busyState.mem.wf = true ∧ CanFetch 2 busyState ∧ CanFetch 3 busyState := by
  unfold CanFetch; decide

theorem witness_StoreThenLoadReturnsValue :
    busyState.mem.wf = true ∧
    (∃ t u, exec (.staAbs 0x0300) busyState = .next t ∧ exec (.ldaAbs 0x0300) t = .next u) ∧
    (∃ t u, exec (.stxAbs 0xFFFF) busyState = .next t ∧ exec (.ldxAbs 0xFFFF) t = .next u) ∧
    (∃ t u, exec (.styAbs 0x0000) busyState = .next t ∧ exec (.ldyAbs 0x0000) t = .next u) :=
  ⟨by decide, ⟨_, _, rfl, rfl⟩, ⟨_, _, rfl, rfl⟩, ⟨_, _, rfl, rfl⟩⟩

theorem witness_NextFetchSeesStore :
    busyState.mem.wf = true ∧ 2 < 3 ∧
    ∃ t, exec (.staAbs (busyState.pc + 3 + BitVec.ofNat 16 2)) busyState = .next t :=
  ⟨by decide, by decide, _, rfl⟩

theorem witness_IllegalPolicyDecidesAfterReport :
    Running busyState ∧ CanFetch 1 busyState ∧ isUnhandledByte (memRead busyState busyState.pc) = true ∧
    busyState.params.illegalPolicy = .reportAndContinue ∧
    (withParams haltParams busyState).params.illegalPolicy = .halt ∧
    isUnhandledByte (memRead (withParams haltParams busyState) (withParams haltParams busyState).pc) = true := by
  unfold Running CanFetch; decide

/-- A finished instruction of each kind, for the frame statements and CycleTableHolds. -/
theorem witness_frames :
    (loadTarget (.ldxImm 0x80) = some .x ∧ ∃ t, exec (.ldxImm 0x80) busyState = .next t) ∧
    (loadTarget (.staZp 0x42) = none ∧ loadTarget (.staZp 0x42) ≠ some .a ∧ ¬ isCall (.staZp 0x42) ∧
      ∃ t, exec (.staZp 0x42) busyState = .next t) ∧
    (isCall (.jsr 0x4000) ∧ ∃ t, exec (.jsr 0x4000) busyState = .next t) ∧
    (storeSource (.ldaZp 0x42) = none ∧ ¬ isCall (.ldaZp 0x42) ∧ ¬ isReport (.ldaZp 0x42) ∧
      ∃ t, exec (.ldaZp 0x42) busyState = .next t) ∧
    ∃ t, exec (.unhandled 0x60) busyState = .next t :=
  ⟨⟨rfl, _, rfl⟩, ⟨rfl, nofun, nofun, _, rfl⟩, ⟨⟨_, rfl⟩, _, rfl⟩, ⟨rfl, nofun, nofun, _, rfl⟩, _, rfl⟩

theorem witness_ProgramCounterAfterInstruction : CanFetch 1 (atPc 0xFFFE) ∧ ¬ CanFetch 1 (atPc 0xFFFF) := by
  unfold CanFetch; decide

/-- Two states that differ in flags alone, one step that finishes and one that stops. -/
theorem witness_NoInstructionReadsFlags :
    SameButFlags busyState { busyState with c := false, z := true, v := true } ∧
    (∃ t, step busyState = .next t) ∧
    SameButFlags (atPc 0xFFFF) { atPc 0xFFFF with i := true } ∧
    step (atPc 0xFFFF) = .fault (.addressOverflow 0xFFFF 1) :=
  ⟨rfl, ⟨_, rfl⟩, rfl, rfl⟩

theorem witness_WrapParameterExcludesFaults :
    Running (withParams wrapParams (atPc 0xFFFF)) ∧
    (withParams wrapParams (atPc 0xFFFF)).params.wrap16 = .wrap := ⟨rfl, rfl⟩

theorem witness_StoppedCoreWaitsForReset :
    ({ State.reset with status := .faulted 0xFFF0 32 } : State).status = .faulted 0xFFF0 32 ∧
    HostCommand.setWord .pc 0x0200 ≠ .reset := ⟨rfl, nofun⟩

/-- An overflow in the first instruction, and one in the second. -/
theorem witness_OverflowStopsExecute :
    Running (atPc 0xFFFF) ∧ step (atPc 0xFFFF) = .fault (.addressOverflow 0xFFFF 1) ∧
    Running (atPc 0xFFFE) ∧ (∃ t, step (atPc 0xFFFE) = .next t) ∧
    (hostExecute 2 (atPc 0xFFFE)).outcome = .faulted := ⟨rfl, rfl, rfl, ⟨_, rfl⟩, rfl⟩

/-- Budgets 2 (met) and 3 (one cycle left) at a 2-cycle load, and an Unhandled byte under Halt. -/
theorem witness_ExecuteContinuesAfterInstruction :
    (Running (program 0x0200 [0xA9, 0x84, 0xA9, 0x01]) ∧ 0 < 2 ∧
      isUnhandledByte (memRead (program 0x0200 [0xA9, 0x84, 0xA9, 0x01]) 0x0200) = false ∧
      (∃ t, step (program 0x0200 [0xA9, 0x84, 0xA9, 0x01]) = .next t ∧
        ((2 : Nat) : Int) ≤ (program 0x0200 [0xA9, 0x84, 0xA9, 0x01]).remaining - t.remaining ∧
        ((3 : Nat) : Int) = (program 0x0200 [0xA9, 0x84, 0xA9, 0x01]).remaining - t.remaining + (1 : Nat)) ∧
      (hostExecute 1 { program 0x0200 [0xA9, 0x84, 0xA9, 0x01] with a := 0x84, n := true, pc := 0x0202 }).outcome ≠
        .faulted) ∧
    (Running (withParams haltParams busyState) ∧ (∃ t, step (withParams haltParams busyState) = .next t) ∧
      (withParams haltParams busyState).params.illegalPolicy = .halt ∧
      isUnhandledByte (memRead (withParams haltParams busyState) (withParams haltParams busyState).pc) = true) :=
  ⟨⟨rfl, by decide, by decide, ⟨_, rfl, by decide, by decide⟩, by decide⟩, rfl, ⟨_, rfl⟩, rfl, by decide⟩

/-- ExecuteStatusMatchesOutcome: a run of each outcome. -/
theorem witness_ExecuteStatusMatchesOutcome :
    Running (atPc 0xFFFF) ∧ (hostExecute 1 (atPc 0xFFFF)).outcome = .faulted ∧
    Running busyState ∧ (hostExecute 1 busyState).outcome = .ok := ⟨rfl, rfl, rfl, rfl⟩

/-- The bound is met at its upper end: `execute(1)` of a JSR uses 6. -/
theorem witness_ExecuteOverrunBounded :
    0 < 1 ∧ (hostExecute 1 (program 0xFFFC [0x20, 0x00, 0x40])).outcome = .ok ∧
    (hostExecute 1 (program 0xFFFC [0x20, 0x00, 0x40])).used = 1 + 5 := ⟨by decide, rfl, rfl⟩

theorem witness_ExecuteOneRunsOneStep : Running busyState ∧ ∃ t, step busyState = .next t := ⟨rfl, _, rfl⟩

theorem witness_SettersWriteTheirFieldOnly :
    WordReg.sp ≠ .pc ∧ Reg.x ≠ .a ∧ FlagName.n ≠ .c := by decide

end Sys2Proof.Tests
end

