-- ==== Sys2Proof/Proofs/Scope.lean ====
section
/-! PROOFS. What every host command keeps (spec/00_scope.md R5, R9): the parameters, and the invariant of a run.
Both are facts a step, a recorded AddressOverflow and a write of the cycle counter keep, so the induction over
the rounds of `execute` is done once, for any such fact. -/
namespace Sys2Proof.Machine

/-! ## Memory, the log and the parameters through the updates -/

section Frames

variable (s : State)

@[simp] theorem setRemaining_mem (k : Int) : (setRemaining k s).mem = s.mem := rfl
@[simp] theorem setRemaining_diag (k : Int) : (setRemaining k s).diag = s.diag := rfl
@[simp] theorem setRemaining_params (k : Int) : (setRemaining k s).params = s.params := rfl

@[simp] theorem setWordReg_mem (r : WordReg) (w : Addr) : (setWordReg r w s).mem = s.mem := by cases r <;> rfl
@[simp] theorem setWordReg_diag (r : WordReg) (w : Addr) : (setWordReg r w s).diag = s.diag := by cases r <;> rfl
@[simp] theorem setWordReg_params (r : WordReg) (w : Addr) : (setWordReg r w s).params = s.params := by
  cases r <;> rfl

@[simp] theorem setFlag_mem (f : FlagName) (w : Bool) : (setFlag f w s).mem = s.mem := by cases f <;> rfl
@[simp] theorem setFlag_diag (f : FlagName) (w : Bool) : (setFlag f w s).diag = s.diag := by cases f <;> rfl
@[simp] theorem setFlag_params (f : FlagName) (w : Bool) : (setFlag f w s).params = s.params := by cases f <;> rfl

@[simp] theorem recordAddressOverflow_diag (a : Addr) (b : Nat) : (recordAddressOverflow a b s).diag = s.diag := rfl
@[simp] theorem recordAddressOverflow_params (a : Addr) (b : Nat) :
    (recordAddressOverflow a b s).params = s.params := rfl

@[simp] theorem hostReset_mem : (hostReset s).mem = [] := rfl
@[simp] theorem hostReset_diag : (hostReset s).diag = s.diag := rfl
@[simp] theorem hostReset_params : (hostReset s).params = s.params := rfl

@[simp] theorem loaded_mem (r : Reg) (w : Byte) (len k : Nat) : (loaded r w len k s).mem = s.mem := by
  cases r <;> rfl
@[simp] theorem loaded_diag (r : Reg) (w : Byte) (len k : Nat) : (loaded r w len k s).diag = s.diag := by
  cases r <;> rfl
@[simp] theorem loaded_params (r : Reg) (w : Byte) (len k : Nat) : (loaded r w len k s).params = s.params := by
  cases r <;> rfl

end Frames

/-! ## What a finished instruction does to them -/

variable {i : Instr} {s t : State}

/-- No instruction changes a parameter (R27). -/
theorem Effect.params (h : Effect i s t) : t.params = s.params := by
  cases h with
  | load r v k => exact loaded_params s r v i.length k
  | store | call | report => rfl

/-- Every instruction keeps the canonical form of memory. -/
theorem Effect.mem_wf (h : Effect i s t) (hm : s.mem.wf = true) : t.mem.wf = true := by
  cases h with
  | load r v k => rwa [loaded_mem]
  | store r ea k => exact memWrite_wf (s := passed i.length k s) hm ea _
  | call target => exact memWrite_wf (memWrite_wf hm (stackSlot s.sp) _) (stackSlot s.sp + 1) _
  | report op => exact hm

/-- The log gains nothing, or the one event of an Unhandled instruction (R122, R125). -/
theorem Effect.diag (h : Effect i s t) :
    t.diag = s.diag ∨ ∃ op, i = .unhandled op ∧ t.diag = s.diag ++ [⟨op, s.pc⟩] := by
  cases h with
  | load r v k => exact .inl (loaded_diag s r v i.length k)
  | store | call => exact .inl rfl
  | report op hi => exact .inr ⟨op, hi, rfl⟩

/-! ## Which bytes are reported -/

/-- A byte without a pair is one of R58's list. -/
theorem isUnhandledByte_of_opcodeMap_none : ∀ op : Byte, opcodeMap op = none → isUnhandledByte op = true := by
  decide

/-- The decoder hands an Unhandled instruction its own opcode byte. -/
theorem eq_of_decodeOp_eq_unhandled {op lo hi b : Byte} (h : decodeOp op lo hi = .unhandled b) : op = b := by
  unfold decodeOp at h
  split at h <;> cases h
  rfl

/-- The byte of a decoded Unhandled instruction is one of R58's list. -/
theorem isUnhandledByte_of_decodeOp {op lo hi b : Byte} (h : decodeOp op lo hi = .unhandled b) :
    isUnhandledByte b = true := by
  have hnone : opcodeMap op = none := by rw [← decodeOp_pair op lo hi, h]; rfl
  rw [← eq_of_decodeOp_eq_unhandled h]
  exact isUnhandledByte_of_opcodeMap_none op hnone

/-! ## One step -/

theorem step_keeps_params (h : step s = .next t) : t.params = s.params := by
  obtain ⟨_, _, he⟩ := step_next h
  exact he.params

/-- The invariant speaks of memory and the log alone. -/
theorem StateInv.congr (hs : StateInv s) (hm : t.mem = s.mem) (hd : t.diag = s.diag) : StateInv t := by
  rwa [StateInv, hm, hd]

/-- A finished step keeps the invariant. -/
theorem StateInv.step_next (hs : StateInv s) (h : step s = .next t) : StateInv t := by
  obtain ⟨hm, hd⟩ := hs
  obtain ⟨_, _, he⟩ := Machine.step_next h
  refine ⟨he.mem_wf hm, fun e hmem => ?_⟩
  rcases he.diag with hsame | ⟨op, hi, happ⟩
  · exact hd e (hsame ▸ hmem)
  · rw [happ, List.mem_append, List.mem_singleton] at hmem
    rcases hmem with hold | rfl
    · exact hd e hold
    · exact isUnhandledByte_of_decodeOp hi

/-- The state an AddressOverflow leaves meets the invariant: its free memory is canonical (assumption log 8). -/
theorem StateInv.recordAddressOverflow (hs : StateInv s) (a : Addr) (b : Nat) :
    StateInv (recordAddressOverflow a b s) :=
  ⟨recordAddressOverflow_wf a b s, by rw [recordAddressOverflow_diag]; exact hs.2⟩

/-- Reset meets the invariant of the state before it: memory is cleared and the log kept (R139). -/
theorem StateInv.hostReset (hs : StateInv s) : StateInv (hostReset s) :=
  ⟨by rw [hostReset_mem]; exact Memory.wf_nil, by rw [hostReset_diag]; exact hs.2⟩

theorem StateInv.memWrite (hs : StateInv s) (addr : Addr) (w : Byte) : StateInv (memWrite addr w s) :=
  ⟨memWrite_wf hs.1 addr w, by rw [memWrite_diag]; exact hs.2⟩

/-! ## `execute` -/

/-- A fact about the state that each thing `execute` does to it keeps. -/
structure KeptByRounds (P : State → Prop) : Prop where
  next : ∀ {s t}, P s → step s = .next t → P t
  overflow : ∀ {s} a b, P s → P (recordAddressOverflow a b s)
  counter : ∀ {s} k, P s → P (setRemaining k s)

/-- The induction over the rounds of the loop of R76. -/
theorem KeptByRounds.executeLoop {P : State → Prop} (hP : KeptByRounds P) (q fuel : Nat) (hs : P s) :
    P (executeLoop q fuel s).state := by
  induction fuel generalizing s with
  | zero => exact hs
  | succ fuel ih =>
    by_cases h0 : 0 < s.remaining
    · rcases step_cases s with ⟨a, b, _, hf⟩ | ⟨_, t, _, hn⟩ | ⟨_, _, a, b, hf⟩
      · rw [executeLoop_fault h0 hf]
        exact hP.overflow a b hs
      · cases hh : haltOn s.params (memRead s s.pc) s.pc with
        | none =>
          rw [executeLoop_next h0 hn hh]
          exact ih (hP.next hs hn)
        | some stop =>
          rw [executeLoop_halt h0 hn hh]
          exact hP.next hs hn
      · rw [executeLoop_fault h0 hf]
        exact hP.overflow a b hs
    · rw [executeLoop_done h0]
      exact hs

/-- `execute` of any budget keeps what its rounds keep. -/
theorem KeptByRounds.hostExecute {P : State → Prop} (hP : KeptByRounds P) (k : Nat) (hs : P s) :
    P (hostExecute k s).state := by
  cases hst : s.status with
  | faulted a b =>
    rw [hostExecute_faulted k hst]
    exact hs
  | running =>
    rw [hostExecute_running k hst]
    exact hP.counter _ (hP.executeLoop k k (hP.counter k hs))

theorem keptByRounds_stateInv : KeptByRounds StateInv where
  next := StateInv.step_next
  overflow a b hs := hs.recordAddressOverflow a b
  counter k hs := hs.congr (setRemaining_mem _ k) (setRemaining_diag _ k)

theorem keptByRounds_params (p : Params) : KeptByRounds (fun s => s.params = p) where
  next hs h := (step_keeps_params h).trans hs
  overflow a b hs := (recordAddressOverflow_params _ a b).trans hs
  counter k hs := (setRemaining_params _ k).trans hs

/-! ## The obligations -/

/-- Settles O4: `execute` by the induction over its rounds, the other commands by what they do to memory and
the log. -/
theorem hostCommandKeepsInvariant : Obligations.HostCommandKeepsInvariant := by
  intro k s hs
  cases k with
  | reset => exact hs.hostReset
  | execute n => exact keptByRounds_stateInv.hostExecute n hs
  | getWord | getByte | getFlag | memRead => exact hs
  | setWord r v => exact hs.congr (setWordReg_mem s r v) (setWordReg_diag s r v)
  | setByte r v => exact hs.congr (setReg_mem s r v) (setReg_diag s r v)
  | setFlag f v => exact hs.congr (setFlag_mem s f v) (setFlag_diag s f v)
  | memWrite addr v => exact hs.memWrite addr v

/-- Settles O48: `execute` by the induction over its rounds, the other commands by what they leave alone. -/
theorem parametersAreFixed : Obligations.ParametersAreFixed := by
  intro k s
  cases k with
  | reset => exact hostReset_params s
  | execute n => exact (keptByRounds_params s.params).hostExecute n rfl
  | getWord | getByte | getFlag | memRead => rfl
  | setWord r v => exact setWordReg_params s r v
  | setByte r v => exact setReg_params s r v
  | setFlag f v => exact setFlag_params s f v
  | memWrite addr v => exact memWrite_params s addr v

end Sys2Proof.Machine
end

