-- ==== Sys2Proof/Proofs/StateFrames.lean ====
section
/-! PROOFS. The state of spec/10_state.md under the instructions, `execute` and the host port: which register,
field or flag each of them writes, that no instruction reads a flag, and the state after reset. The facts about
instructions are facts about `Effect`, the four shapes of a finished instruction. -/
namespace Sys2Proof.Machine

/-! ## The fields a load leaves alone -/

section Loaded

variable (s : State) (r : Reg) (w : Byte) (len k : Nat)

@[simp] theorem loaded_pc : (loaded r w len k s).pc = s.pc + BitVec.ofNat 16 len := by cases r <;> rfl
@[simp] theorem loaded_sp : (loaded r w len k s).sp = s.sp := by cases r <;> rfl
@[simp] theorem loaded_reserved : (loaded r w len k s).reserved = s.reserved := by cases r <;> rfl
@[simp] theorem loaded_status : (loaded r w len k s).status = s.status := by cases r <;> rfl
@[simp] theorem loaded_faults : (loaded r w len k s).faults = s.faults := by cases r <;> rfl

theorem getReg_loaded_other {q : Reg} (h : q ≠ r) : getReg q (loaded r w len k s) = getReg q s :=
  (getReg_setReg_other _ h w).trans (by cases q <;> rfl)

end Loaded

/-! ## What a finished instruction does to each field -/

section Effects

variable {i : Instr} {s t : State}

/-- A finished instruction has one of the four effects. -/
theorem effect_of_exec (h : exec i s = .next t) : Effect i s t := by
  rcases exec_cases i s with ⟨u, he, hu⟩ | ⟨_, a, b, hf⟩
  · rw [h] at hu
    cases hu
    exact he
  · rw [h] at hf
    exact nomatch hf

/-- The effect of JSR is the call. -/
theorem Effect.eq_calledState {target : Addr} (h : Effect (.jsr target) s t) : t = calledState target s := by
  cases h with
  | load _ _ _ hr | store _ _ _ hr => exact nomatch hr
  | call _ hi => cases hi; rfl
  | report _ hi => exact nomatch hi

/-- The effect of an Unhandled instruction is the report. -/
theorem Effect.eq_reported {op : Byte} (h : Effect (.unhandled op) s t) :
    t = raiseInvalidOpcode op s.pc (passed 1 1 s) := by
  cases h with
  | load _ _ _ hr | store _ _ _ hr => exact nomatch hr
  | call _ hi => exact nomatch hi
  | report _ hi => cases hi; rfl

/-- A, X and Y change by their own loads only (R15, R16, R17). -/
theorem Effect.getReg_of_loadTarget_ne {r : Reg} (h : Effect i s t) (hr : loadTarget i ≠ some r) :
    getReg r t = getReg r s := by
  cases h with
  | load q v k hq => exact getReg_loaded_other s q v _ k (fun hrq => hr (hrq ▸ hq))
  | store | call | report => cases r <;> rfl

/-- SP changes by JSR only (R21). -/
theorem Effect.sp_of_not_isCall (h : Effect i s t) (hn : ¬ isCall i) : t.sp = s.sp := by
  cases h with
  | load r v k => exact loaded_sp s r v _ k
  | call target hi => exact absurd ⟨target, hi⟩ hn
  | store | report => rfl

/-- PC moves past the instruction, but for JSR (R18). -/
theorem Effect.pc_of_not_isCall (h : Effect i s t) (hn : ¬ isCall i) :
    t.pc = s.pc + BitVec.ofNat 16 i.length := by
  cases h with
  | load r v k => exact loaded_pc s r v _ k
  | store => rfl
  | call target hi => exact absurd ⟨target, hi⟩ hn
  | report op hi => subst hi; rfl

/-- No instruction changes the run status (R29). -/
theorem Effect.status (h : Effect i s t) : t.status = s.status := by
  cases h with
  | load r v k => exact loaded_status s r v _ k
  | store | call | report => rfl

/-- No instruction writes the reserved bit (R24). -/
theorem Effect.reserved (h : Effect i s t) : t.reserved = s.reserved := by
  cases h with
  | load r v k => exact loaded_reserved s r v _ k
  | store | call | report => rfl

/-- The fault count is no instruction's (assumption log 8). -/
theorem Effect.faults (h : Effect i s t) : t.faults = s.faults := by
  cases h with
  | load r v k => exact loaded_faults s r v _ k
  | store | call | report => rfl

/-- Only an Unhandled instruction adds to the log. -/
theorem Effect.diag_of_not_isReport (h : Effect i s t) (hn : ¬ isReport i) : t.diag = s.diag :=
  h.diag.resolve_right fun ⟨op, hi, _⟩ => hn ⟨op, hi⟩

/-- A step that finishes leaves the core running. -/
theorem running_of_step_next (h : step s = .next t) : Running t := by
  obtain ⟨hr, _, he⟩ := step_next h
  exact he.status.trans hr

end Effects

/-! ## No instruction reads a flag

A state without its flags and the reserved bit: an instruction gives the same answer from it, up to the same
fields. -/

/-- The state with every flag and the reserved bit 0: what two states that differ in flags alone share. -/
def eraseFlags (s : State) : State :=
  { s with
    c := false, z := false, i := false, d := false, b := false, v := false, n := false, reserved := false }

theorem sameButFlags_iff {s t : State} : SameButFlags s t ↔ eraseFlags s = eraseFlags t := by
  cases s
  cases t
  simp [SameButFlags, eraseFlags, eq_comm]

/-- An outcome up to the flags of its next state. -/
def eraseOutcome : Host.Outcome State Fault Refusal → Host.Outcome State Fault Refusal
  | .next s    => .next (eraseFlags s)
  | .fault f   => .fault f
  | .refused r => .refused r

section Erase

variable (s : State)

@[simp] theorem getReg_eraseFlags (r : Reg) : getReg r (eraseFlags s) = getReg r s := by cases r <;> rfl

theorem advanceBy_eraseFlags {k : Nat} (hk : 1 ≤ k) :
    advanceBy k (eraseFlags s) = (advanceBy k s).map eraseFlags := by
  rcases advanceBy_cases k s hk with ⟨hf, h⟩ | ⟨hf, h⟩
  · rw [h, advanceBy_ok (s := eraseFlags s) hk hf]
    rfl
  · rw [h, advanceBy_error (s := eraseFlags s) hk hf]
    rfl

theorem resolveAbsIndexed_eraseFlags (base : Addr) (idx : Byte) (p : Purpose) :
    resolveAbsIndexed base idx p (eraseFlags s) =
      (resolveAbsIndexed base idx p s).map (Prod.map id eraseFlags) := by
  by_cases h : CanIndex base idx s
  · rw [resolveAbsIndexed_ok p h, resolveAbsIndexed_ok (s := eraseFlags s) p h]
    rfl
  · rw [resolveAbsIndexed_error p h, resolveAbsIndexed_error (s := eraseFlags s) p h]
    rfl

theorem resolveIndirectY_eraseFlags (b : Byte) (p : Purpose) :
    resolveIndirectY b p (eraseFlags s) = (resolveIndirectY b p s).map (Prod.map id eraseFlags) := by
  by_cases h : CanIndex (zpPointer b s) s.y s
  · rw [resolveIndirectY_ok p h, resolveIndirectY_ok (s := eraseFlags s) p h]
    rfl
  · rw [resolveIndirectY_error p h, resolveIndirectY_error (s := eraseFlags s) p h]
    rfl

/-- The resolver reads no flag. -/
theorem resolve_eraseFlags (o : Operand) (p : Purpose) :
    resolve o p (eraseFlags s) = (resolve o p s).map (Prod.map id eraseFlags) := by
  cases o with
  | zeroPage | zeroPageX | zeroPageY | absolute => rfl
  | absoluteX w => exact resolveAbsIndexed_eraseFlags s w s.x p
  | absoluteY w => exact resolveAbsIndexed_eraseFlags s w s.y p
  | indirectX b =>
    rw [resolve, resolve, resolveIndirectX_ok, resolveIndirectX_ok]
    rfl
  | indirectY b => exact resolveIndirectY_eraseFlags s b p

theorem eraseFlags_loadValue (r : Reg) (w : Byte) :
    eraseFlags (loadValue r w (eraseFlags s)) = eraseFlags (loadValue r w s) := by cases r <;> rfl

theorem loadImmediate_readsNoFlag (r : Reg) (w : Byte) :
    eraseOutcome (finish (loadImmediate r w (eraseFlags s))) = eraseOutcome (finish (loadImmediate r w s)) := by
  rw [loadImmediate, loadImmediate, advanceBy_eraseFlags s (by decide)]
  cases advanceBy 2 s with
  | error f => rfl
  | ok t => exact congrArg Host.Outcome.next (eraseFlags_loadValue t r w)

theorem load_readsNoFlag (r : Reg) (o : Operand) :
    eraseOutcome (finish (load r o (eraseFlags s))) = eraseOutcome (finish (load r o s)) := by
  rw [load, load, advanceBy_eraseFlags s (by omega)]
  cases advanceBy (1 + operandBytes o) s with
  | error f => rfl
  | ok t =>
    simp only [Except.map, bind_ok, resolve_eraseFlags]
    cases resolve o .load t with
    | error f => rfl
    | ok q => exact congrArg Host.Outcome.next (eraseFlags_loadValue (charge 1 q.2) r _)

theorem store_readsNoFlag (r : Reg) (o : Operand) :
    eraseOutcome (finish (store r o (eraseFlags s))) = eraseOutcome (finish (store r o s)) := by
  rw [store, store, advanceBy_eraseFlags s (by omega)]
  cases advanceBy (1 + operandBytes o) s with
  | error f => rfl
  | ok t =>
    simp only [Except.map, bind_ok, resolve_eraseFlags]
    cases resolve o .store t with
    | error f => rfl
    | ok q =>
      simp only [Prod.map, bind_ok, getReg_eraseFlags, chargeIf_eq]
      rfl

theorem jumpToSubroutine_readsNoFlag (target : Addr) :
    eraseOutcome (finish (jumpToSubroutine target (eraseFlags s))) =
      eraseOutcome (finish (jumpToSubroutine target s)) := by
  by_cases h : CanFetch 3 s
  · rw [jumpToSubroutine_ok h, jumpToSubroutine_ok (s := eraseFlags s) h]
    rfl
  · rw [jumpToSubroutine_error h, jumpToSubroutine_error (s := eraseFlags s) h]

theorem reportUnhandled_readsNoFlag (op : Byte) :
    eraseOutcome (finish (reportUnhandled op (eraseFlags s))) =
      eraseOutcome (finish (reportUnhandled op s)) := by
  by_cases h : CanFetch 1 s
  · rw [reportUnhandled_ok h, reportUnhandled_ok (s := eraseFlags s) h]
    rfl
  · rw [reportUnhandled_error h, reportUnhandled_error (s := eraseFlags s) h]

theorem exec_readsNoFlag (i : Instr) : eraseOutcome (exec i (eraseFlags s)) = eraseOutcome (exec i s) := by
  cases i with
  | ldaImm | ldxImm | ldyImm => exact loadImmediate_readsNoFlag s _ _
  | ldaZp | ldaZpX | ldaAbs | ldaAbsX | ldaAbsY | ldaIndX | ldaIndY
  | ldxZp | ldxZpY | ldxAbs | ldxAbsY | ldyZp | ldyZpX | ldyAbs | ldyAbsX => exact load_readsNoFlag s _ _
  | staZp | staZpX | staAbs | staAbsX | staAbsY | staIndX | staIndY
  | stxZp | stxZpY | stxAbs | styZp | styZpX | styAbs => exact store_readsNoFlag s _ _
  | jsr target => exact jumpToSubroutine_readsNoFlag s target
  | unhandled op => exact reportUnhandled_readsNoFlag s op

theorem step_readsNoFlag : eraseOutcome (step (eraseFlags s)) = eraseOutcome (step s) := by
  cases hs : s.status with
  | faulted a b => rw [step_faulted hs, step_faulted (s := eraseFlags s) hs]
  | running =>
    rw [step_running hs, step_running (s := eraseFlags s) hs]
    exact exec_readsNoFlag s (instrAt s)

end Erase

theorem eraseOutcome_step_congr {s s' : State} (h : SameButFlags s s') :
    eraseOutcome (step s) = eraseOutcome (step s') := by
  rw [← step_readsNoFlag s, sameButFlags_iff.mp h, step_readsNoFlag]

theorem eraseOutcome_eq_fault {x : Host.Outcome State Fault Refusal} {f : Fault} :
    eraseOutcome x = .fault f ↔ x = .fault f := by
  cases x <;> simp [eraseOutcome]

theorem eraseOutcome_eq_next {x : Host.Outcome State Fault Refusal} {u : State} :
    eraseOutcome x = .next u ↔ ∃ t, x = .next t ∧ eraseFlags t = u := by
  cases x <;> simp [eraseOutcome]

/-! ## The status `execute` leaves -/

/-- The outcome is Faulted exactly when the status is, and it is no refusal. -/
def StatusMatches (r : ExecuteResult) : Prop :=
  (r.outcome = .faulted ↔ ∃ a b, r.state.status = .faulted a b) ∧ ∀ f, r.outcome ≠ .refused f

section Execute

variable {s : State}

theorem Running.statusMatches_ok (h : Running s) (used : Int) : StatusMatches ⟨used, .ok, s⟩ := by
  have hs : s.status = .running := h
  simp [StatusMatches, hs]

theorem Running.statusMatches_invalidOpcode (h : Running s) (used : Int) (op : Byte) (addr : Addr) :
    StatusMatches ⟨used, .invalidOpcode op addr, s⟩ := by
  have hs : s.status = .running := h
  simp [StatusMatches, hs]

theorem statusMatches_recordAddressOverflow (used : Int) (a : Addr) (b : Nat) (s : State) :
    StatusMatches ⟨used, .faulted, recordAddressOverflow a b s⟩ :=
  ⟨⟨fun _ => ⟨a, b, rfl⟩, fun _ => rfl⟩, nofun⟩

/-- Every round that ends the loop of R76 leaves the status its outcome says, and every other one leaves the
core running. -/
theorem executeLoop_statusMatches (q fuel : Nat) (h : Running s) : StatusMatches (executeLoop q fuel s) := by
  induction fuel generalizing s with
  | zero => exact h.statusMatches_ok _
  | succ fuel ih =>
    by_cases h0 : 0 < s.remaining
    · rcases step_cases s with ⟨a, b, _, hf⟩ | ⟨_, t, _, hn⟩ | ⟨_, _, a, b, hf⟩
      · rw [executeLoop_fault h0 hf]
        exact statusMatches_recordAddressOverflow _ a b s
      · have ht : Running t := running_of_step_next hn
        rcases haltOn_cases s.params (memRead s s.pc) s.pc with hh | ⟨_, _, hh⟩
        · rw [executeLoop_next h0 hn hh]
          exact ih ht
        · rw [executeLoop_halt h0 hn hh]
          exact ht.statusMatches_invalidOpcode _ _ _
      · rw [executeLoop_fault h0 hf]
        exact statusMatches_recordAddressOverflow _ a b s
    · rw [executeLoop_done h0]
      exact h.statusMatches_ok _

theorem hostExecute_statusMatches (k : Nat) (h : Running s) : StatusMatches (hostExecute k s) := by
  rw [hostExecute_running k h]
  exact executeLoop_statusMatches k k (s := setRemaining k s) h

end Execute

/-! ## The setters and getters of the host port -/

section Setters

variable (s : State)

theorem getWordReg_setWordReg (r q : WordReg) (w : Addr) :
    getWordReg q (setWordReg r w s) = if q = r then w else getWordReg q s := by
  cases r <;> cases q <;> rfl

theorem setWordReg_frame (r : WordReg) (w : Addr) :
    setWordReg r w s = { s with pc := (setWordReg r w s).pc, sp := (setWordReg r w s).sp } := by
  cases r <;> rfl

theorem setReg_frame (r : Reg) (w : Byte) :
    setReg r w s = { s with a := (setReg r w s).a, x := (setReg r w s).x, y := (setReg r w s).y } := by
  cases r <;> rfl

theorem getFlag_setFlag (f g : FlagName) (w : Bool) :
    getFlag g (setFlag f w s) = if g = f then w else getFlag g s := by
  cases f <;> cases g <;> rfl

theorem setFlag_frame (f : FlagName) (w : Bool) :
    setFlag f w s = { s with
      c := (setFlag f w s).c, z := (setFlag f w s).z, i := (setFlag f w s).i, d := (setFlag f w s).d,
      b := (setFlag f w s).b, v := (setFlag f w s).v, n := (setFlag f w s).n } := by
  cases f <;> rfl

end Setters

/-! ## The obligations -/

/-- Settles O35: by the four effects of a finished instruction, of which a load alone writes A, X or Y and the
call alone SP. -/
theorem registersWrittenByTheirOwnersOnly : Obligations.RegistersWrittenByTheirOwnersOnly := by
  intro i s t h
  have he := effect_of_exec h
  refine ⟨fun r => he.getReg_of_loadTarget_ne, he.sp_of_not_isCall, ?_⟩
  rintro ⟨target, rfl⟩
  rw [he.eq_calledState]
  rfl

/-- Settles O37: the fetch by its two cases, PC after an instruction by its effect. -/
theorem programCounterAfterInstruction : Obligations.ProgramCounterAfterInstruction := by
  refine ⟨fun s => fetchByte_ok, fun s => fetchByte_error, fun i s t h => ?_⟩
  have he := effect_of_exec h
  refine ⟨?_, he.pc_of_not_isCall⟩
  rintro target rfl
  rw [he.eq_calledState]
  rfl

/-- Settles O38: by the four effects of a finished instruction, of which the report alone writes the log. -/
theorem instructionsKeepRunState : Obligations.InstructionsKeepRunState := by
  intro i s t h
  have he := effect_of_exec h
  refine ⟨he.status, he.params, he.reserved, he.faults, he.diag_of_not_isReport, ?_⟩
  rintro op rfl
  rw [he.eq_reported]
  rfl

/-- Settles O39: a step from the state without its flags has the same outcome up to flags, and two states that
differ in flags alone have the same state without flags. -/
theorem noInstructionReadsFlags : Obligations.NoInstructionReadsFlags := by
  intro s s' hs
  have heq := eraseOutcome_step_congr hs
  refine ⟨fun f => ?_, fun t ht => ?_⟩
  · rw [← eraseOutcome_eq_fault, heq, eraseOutcome_eq_fault]
  · rw [ht] at heq
    obtain ⟨t', ht', he⟩ := eraseOutcome_eq_next.mp heq.symm
    exact ⟨t', ht', sameButFlags_iff.mpr he.symm⟩

/-- Settles O44: by the induction over the rounds of `execute`. -/
theorem executeStatusMatchesOutcome : Obligations.ExecuteStatusMatchesOutcome :=
  fun _ k h => hostExecute_statusMatches k h

/-- Settles O2: reset clears memory and keeps the log, which is empty in State.reset. -/
theorem resetMeetsInvariant : Obligations.ResetMeetsInvariant :=
  ⟨⟨reset_mem_wf, nofun⟩, rfl, fun _ hs => hs.hostReset⟩

/-- Settles O49: by what each kind of setter does to its own fields. -/
theorem settersWriteTheirFieldOnly : Obligations.SettersWriteTheirFieldOnly := by
  intro s
  refine ⟨fun r w => ⟨congrArg HostReply.word ?_, fun q h => ?_, setWordReg_frame s r w⟩,
    fun r w => ⟨congrArg HostReply.byte (getReg_setReg_same s r w), fun q h => getReg_setReg_other s h w,
      setReg_frame s r w⟩,
    fun f w => ⟨congrArg HostReply.flag ?_, fun g h => ?_, setFlag_frame s f w⟩,
    fun _ => rfl, fun _ => rfl, fun _ => rfl⟩
  · exact (getWordReg_setWordReg s r r w).trans (if_pos rfl)
  · exact (getWordReg_setWordReg s r q w).trans (if_neg h)
  · exact (getFlag_setFlag s f f w).trans (if_pos rfl)
  · exact (getFlag_setFlag s f g w).trans (if_neg h)

end Sys2Proof.Machine
end

/-! PROOFS. The memory of spec/20_memory.md: the address sum, the word primitives, the host's pokes and peeks, the
bytes an instruction is fetched from, and that reading an instruction's bytes in the decoder is the loop body of
spec/41_dispatch.md R76, which fetches them one by one. -/
namespace Sys2Proof.Machine

/-! ## Addresses next to one another -/

section Neighbours

variable (a : Addr)

theorem add_one_ne_self : a + 1 ≠ a := by bv_omega
theorem add_two_ne_self : a + 2 ≠ a := by bv_omega
theorem add_two_ne_add_one : a + 2 ≠ a + 1 := by bv_omega
theorem add_one_add_one : a + 1 + 1 = a + 2 := BitVec.add_assoc a 1 1

end Neighbours

/-! ## The bytes of an instruction -/

/-- Byte `k` of the fetched bytes is the one at PC + k. -/
theorem instrBytes_getElem? (s : State) {k : Nat} (hk : k < 3) :
    (instrBytes s)[k]? = some (memRead s (s.pc + BitVec.ofNat 16 k)) := by
  match k, hk with
  | 0, _ => simp [instrBytes]
  | 1, _ => rfl
  | 2, _ => rfl

/-- Three bytes poked from an address on are read there. -/
theorem memRead_pokeBytes_three {s : State} (hm : s.mem.wf = true) (a : Addr) (v₀ v₁ v₂ : Byte) :
    let t := pokeBytes [v₀, v₁, v₂] a s
    memRead t a = v₀ ∧ memRead t (a + 1) = v₁ ∧ memRead t (a + 2) = v₂ := by
  have hm₁ := memWrite_wf hm a v₀
  have hm₂ := memWrite_wf hm₁ (a + 1) v₁
  simp only [pokeBytes, add_one_add_one]
  refine ⟨?_, ?_, memRead_memWrite_same hm₂ (a + 2) v₂⟩
  · rw [memRead_memWrite_other (add_two_ne_self a).symm, memRead_memWrite_other (add_one_ne_self a).symm,
      memRead_memWrite_same hm]
  · rw [memRead_memWrite_other (add_two_ne_add_one a).symm, memRead_memWrite_same hm₁]

@[simp] theorem pokeBytes_pc (vs : List Byte) (a : Addr) (s : State) : (pokeBytes vs a s).pc = s.pc := by
  induction vs generalizing a s with
  | nil => rfl
  | cons v vs ih => exact ih (a + 1) (memWrite a v s)

@[simp] theorem pokeBytes_status (vs : List Byte) (a : Addr) (s : State) :
    (pokeBytes vs a s).status = s.status := by
  induction vs generalizing a s with
  | nil => rfl
  | cons v vs ih => exact ih (a + 1) (memWrite a v s)

/-! ## Placing an instruction -/

/-- An instruction has one to three bytes (R59). -/
theorem opcodeLength_cases (op : Byte) : opcodeLength op = 1 ∨ opcodeLength op = 2 ∨ opcodeLength op = 3 := by
  unfold opcodeLength
  split
  · next m _ => cases m <;> simp [Mode.operandBytes]
  · exact .inl rfl

/-- The decoder uses no byte past the instruction's length (R53). -/
theorem decodeOp_eq_within_length (op lo hi : Byte) : decodeOp op lo hi =
    decodeOp op (if opcodeLength op = 1 then 0 else lo) (if opcodeLength op = 3 then hi else 0) := by
  rw [← decodeOp_length op lo hi]
  unfold decodeOp
  split <;> simp [Instr.length, Instr.pair, Mode.operandBytes]

/-- What `decode` finds in three bytes is what `decodeOp` makes of them. -/
theorem decodeOp_eq_of_decode {op lo hi : Byte} {i : Instr} {rest : List Byte}
    (h : decode [op, lo, hi] = .ok (i, rest)) : decodeOp op lo hi = i := by
  rw [decodeOp_eq_within_length]
  rcases opcodeLength_cases op with hlen | hlen | hlen <;>
  · simp only [decode, hlen] at h
    cases h
    rw [hlen]
    rfl

/-- The decoder finds the placed instruction at PC. -/
theorem instrAt_withFetchWord {s : State} {nbits w : Nat} {i : Instr} (hm : s.mem.wf = true)
    (h : decodeTableWord nbits w = some i) : instrAt (s.withFetchWord nbits w) = i := by
  obtain ⟨h₀, h₁, h₂⟩ := memRead_pokeBytes_three hm s.pc (tableByte nbits w 0) (tableByte nbits w 1)
    (tableByte nbits w 2)
  have hat : instrAt (s.withFetchWord nbits w) =
      decodeOp (tableByte nbits w 0) (tableByte nbits w 1) (tableByte nbits w 2) := by
    simp only [instrAt, State.withFetchWord, tableBytes, pokeBytes_pc, h₀, h₁, h₂]
  rw [hat]
  unfold decodeTableWord at h
  split at h
  · next hd =>
    cases h
    exact decodeOp_eq_of_decode hd
  · exact nomatch h

/-! ## An absolute store -/

/-- STA $nnnn, where it finishes, is the store of A at its operand word in 4 cycles (R108). -/
theorem stored_of_exec_staAbs {s t : State} {w : Addr} (hm : s.mem.wf = true)
    (h : exec (.staAbs w) s = .next t) : Stored w s.a 3 4 s t := by
  have h' : store .a (.absolute w) s = .ok t := finish_eq_next.mp h
  by_cases hf : CanFetch 3 s
  · have hr : resolve (.absolute w) .store (passed 3 3 s) = .ok (w, charge 0 (passed 3 3 s)) := by
      rw [charge_zero]; rfl
    rw [store_ok (o := .absolute w) hf hr] at h'
    cases h'
    exact stored_storedState hm w s.a 3 4
  · rw [store_fetch_error (o := .absolute w) hf] at h'
    exact nomatch h'

/-! ## The loop body of R76

The decoder's instruction does what `referenceStep` does with the opcode's entry, the operand bytes being carried
instead of fetched. Said once for every entry, it leaves one comparison per operation kind. -/

/-- The operand of a mode in the two bytes after the opcode (R54, R66 to R73). Immediate is not resolved (R65). -/
def operandOf (m : Mode) (lo hi : Byte) : Option Operand :=
  match m with
  | .immediate => none
  | .zeroPage  => some (.zeroPage lo)
  | .zeroPageX => some (.zeroPageX lo)
  | .zeroPageY => some (.zeroPageY lo)
  | .absolute  => some (.absolute (wordOf hi lo))
  | .absoluteX => some (.absoluteX (wordOf hi lo))
  | .absoluteY => some (.absoluteY (wordOf hi lo))
  | .indirectX => some (.indirectX lo)
  | .indirectY => some (.indirectY lo)

/-- A load of mode `m` with the two bytes after the opcode carried. -/
def loadEntry (r : Reg) (m : Mode) (lo hi : Byte) (s : State) : Except Fault State :=
  match operandOf m lo hi with
  | none   => loadImmediate r lo s
  | some o => load r o s

/-- A store of mode `m` with the two bytes after the opcode carried. No opcode stores Immediate (R105): like
`referenceStore`, it then fetches the opcode alone. -/
def storeEntry (r : Reg) (m : Mode) (lo hi : Byte) (s : State) : Except Fault State :=
  match operandOf m lo hi with
  | none   => advance s
  | some o => store r o s

/-- The model's instruction of an entry of the opcode map, the two bytes after the opcode carried. -/
def execEntry (entry : Option (OpKind × Mode)) (op lo hi : Byte) (s : State) : Except Fault State :=
  match entry with
  | some (.loadA, m)  => loadEntry .a m lo hi s
  | some (.loadX, m)  => loadEntry .x m lo hi s
  | some (.loadY, m)  => loadEntry .y m lo hi s
  | some (.storeA, m) => storeEntry .a m lo hi s
  | some (.storeX, m) => storeEntry .x m lo hi s
  | some (.storeY, m) => storeEntry .y m lo hi s
  | some (.jumpToSubroutine, _) => jumpToSubroutine (wordOf hi lo) s
  | none => reportUnhandled op s

/-- A decoded instruction is that of its opcode's entry. -/
theorem exec_decodeOp (op lo hi : Byte) (s : State) :
    exec (decodeOp op lo hi) s = finish (execEntry (opcodeMap op) op lo hi s) := by
  rw [← decodeOp_pair op lo hi]
  unfold decodeOp
  split <;> rfl

section Fetch

variable {s : State}

theorem advanceBy_one_add (n : Nat) : advanceBy (1 + n) s = advance s >>= advanceBy n := by
  rw [Nat.add_comm]
  rfl

/-- FetchByte is the PC advance, with the byte read before it. -/
theorem fetchByte_eq (s : State) : fetchByte s = advanceBy 1 s >>= fun t => .ok (memRead s s.pc, t) := by
  rcases advanceBy_cases 1 s (Nat.le_refl 1) with ⟨hf, h⟩ | ⟨hf, h⟩
  · rw [h, fetchByte_ok hf, bind_ok]
  · rw [h, fetchByte_error hf, bind_error]

/-- FetchWord is two PC advances, with the word read before them. -/
theorem fetchWord_eq (s : State) : fetchWord s =
    advanceBy 2 s >>= fun t => .ok (wordOf (memRead s (s.pc + 1)) (memRead s s.pc), t) := by
  rw [advanceBy_one_add 1]
  by_cases hf : CanFetch 1 s
  · simp only [fetchWord, fetchByte_ok hf, advance_ok hf, bind_ok, fetchByte_eq (passed 1 1 s)]
    cases advanceBy 1 (passed 1 1 s) <;> rfl
  · simp only [fetchWord, fetchByte_error hf, advance_error hf, bind_error]

/-- Fetching a mode's operand bytes gives the operand the decoder carries. -/
theorem fetchOperand_some {m : Mode} {o : Operand} {s : State}
    (h : operandOf m (memRead s s.pc) (memRead s (s.pc + 1)) = some o) :
    fetchOperand m s = advanceBy (operandBytes o) s >>= fun t => .ok (some o, t) := by
  cases m with
  | immediate => exact nomatch h
  | zeroPage | zeroPageX | zeroPageY | indirectX | indirectY =>
    cases h
    simp only [fetchOperand, operandBytes, fetchByte_eq]
    cases advanceBy 1 s <;> rfl
  | absolute | absoluteX | absoluteY =>
    cases h
    simp only [fetchOperand, operandBytes, fetchWord_eq]
    cases advanceBy 2 s <;> rfl

/-- Only Immediate has no operand to resolve. -/
theorem fetchOperand_none {m : Mode} {lo hi : Byte} (h : operandOf m lo hi = none) (s : State) :
    fetchOperand m s = .ok (none, s) := by
  cases m with
  | immediate => rfl
  | zeroPage | zeroPageX | zeroPageY | absolute | absoluteX | absoluteY | indirectX | indirectY => exact nomatch h

end Fetch

/-! ### One comparison per operation kind -/

section Compare

variable {s : State}

/-- After the same opcode fetch, two sequences need to agree on the fetched state only. -/
theorem advance_bind_congr {α : Type} {f g : State → Except Fault α} (h : f (passed 1 1 s) = g (passed 1 1 s)) :
    advance s >>= f = advance s >>= g := by
  by_cases hf : CanFetch 1 s
  · rw [advance_ok hf, bind_ok, bind_ok, h]
  · rw [advance_error hf, bind_error, bind_error]

/-- The operand in the two bytes after the opcode is the one at PC after the opcode fetch. -/
theorem fetchOperand_after_opcode {m : Mode} {o : Operand}
    (h : operandOf m (memRead s (s.pc + 1)) (memRead s (s.pc + 2)) = some o) :
    fetchOperand m (passed 1 1 s) =
      advanceBy (operandBytes o) (passed 1 1 s) >>= fun t => .ok (some o, t) := by
  refine fetchOperand_some ?_
  rw [← h, ← add_one_add_one]
  rfl

theorem loadEntry_reference (r : Reg) (m : Mode) :
    loadEntry r m (memRead s (s.pc + 1)) (memRead s (s.pc + 2)) s = advance s >>= referenceLoad r m := by
  unfold loadEntry
  split
  · next hop =>
    rw [loadImmediate, advanceBy_one_add 1, bind_assoc]
    refine advance_bind_congr ?_
    simp only [referenceLoad, fetchOperand_none hop, bind_ok, fetchByte_eq, bind_assoc]
    rfl
  · next o hop =>
    rw [load, advanceBy_one_add, bind_assoc]
    refine advance_bind_congr ?_
    simp only [referenceLoad, fetchOperand_after_opcode hop, bind_ok, bind_assoc]
    rfl

theorem storeEntry_reference (r : Reg) (m : Mode) :
    storeEntry r m (memRead s (s.pc + 1)) (memRead s (s.pc + 2)) s = advance s >>= referenceStore r m := by
  unfold storeEntry
  split
  · next hop =>
    refine (bind_pure (advance s)).symm.trans (advance_bind_congr ?_)
    simp only [referenceStore, fetchOperand_none hop, bind_ok]
  · next o hop =>
    rw [store, advanceBy_one_add, bind_assoc]
    refine advance_bind_congr ?_
    simp only [referenceStore, fetchOperand_after_opcode hop, bind_ok, bind_assoc]
    rfl

theorem jumpToSubroutine_reference :
    jumpToSubroutine (wordOf (memRead s (s.pc + 2)) (memRead s (s.pc + 1))) s = advance s >>= referenceJsr := by
  rw [jumpToSubroutine, advanceBy_one_add 2, bind_assoc]
  refine advance_bind_congr ?_
  simp only [referenceJsr, fetchWord_eq, bind_ok, bind_assoc, memRead_passed, passed_pc, ← add_one_add_one]
  rfl

/-- The loop body after its first read. -/
theorem referenceLoopBody_eq : referenceLoopBody s =
    advance s >>= referenceStep (opcodeMap (memRead s s.pc)) (memRead s s.pc) s.pc := by
  simp only [referenceLoopBody, fetchByte, bind_assoc]
  rfl

/-- For every entry of the opcode map, the instruction with its bytes carried is the operation that fetches them
itself (assumption log 3). -/
theorem execEntry_reference (entry : Option (OpKind × Mode)) (op : Byte) :
    execEntry entry op (memRead s (s.pc + 1)) (memRead s (s.pc + 2)) s =
      advance s >>= referenceStep entry op s.pc := by
  match entry with
  | some (.loadA, m) => exact loadEntry_reference .a m
  | some (.loadX, m) => exact loadEntry_reference .x m
  | some (.loadY, m) => exact loadEntry_reference .y m
  | some (.storeA, m) => exact storeEntry_reference .a m
  | some (.storeX, m) => exact storeEntry_reference .x m
  | some (.storeY, m) => exact storeEntry_reference .y m
  | some (.jumpToSubroutine, _) => exact jumpToSubroutine_reference
  | none =>
    rw [execEntry, reportUnhandled, advanceBy_one_add 0, bind_assoc]
    exact advance_bind_congr rfl

end Compare

/-! ## The obligations -/

/-- Settles O12: the three cases of the sum, each with the 16-bit sum's value. -/
theorem add16FollowsWrapParameter : Obligations.Add16FollowsWrapParameter := by
  intro p a b hb
  have ha := a.isLt
  refine ⟨fun hle => ⟨_, add16_ok (.inl hle), ?_⟩,
    fun hgt => ⟨fun hp => add16_error ?_, fun hp => ⟨_, add16_ok (.inr hp), ?_⟩⟩⟩
  · simp only [BitVec.toNat_add, BitVec.toNat_ofNat]
    omega
  · simp [hp, hgt]
  · simp only [BitVec.toNat_add, BitVec.toNat_ofNat]
    omega

/-- Settles O50: a poke is one write of memory, a peek one read. -/
theorem hostPokesAndPeeks : Obligations.HostPokesAndPeeks := by
  intro s addr v hm
  exact ⟨congrArg HostReply.byte (memRead_memWrite_same hm addr v), rfl,
    fun other h => congrArg HostReply.byte (memRead_memWrite_other h v s), rfl⟩

/-- Settles O41: of the three things a step can do, a running core under Wrap is left with the instruction's
effect, and none is a refusal. -/
theorem wrapParameterExcludesFaults : Obligations.WrapParameterExcludesFaults := by
  refine ⟨fun s hr hw => ?_, fun s r h => ?_⟩
  · rcases step_cases s with ⟨a, b, hs, _⟩ | ⟨_, t, _, ht⟩ | ⟨_, hf, _⟩
    · exact nomatch hr.symm.trans hs
    · exact ⟨t, ht⟩
    · exact nomatch hw.symm.trans hf
  · rcases step_cases s with ⟨a, b, _, h'⟩ | ⟨_, t, _, h'⟩ | ⟨_, _, a, b, h'⟩ <;>
      exact nomatch h.symm.trans h'

/-- Settles O15: the two written cells are distinct, and the word read back is put together from them. -/
theorem wordsAreLittleEndian : Obligations.WordsAreLittleEndian := by
  intro s addr w hm hle
  have hlo : memRead (memWrite (addr + 1) (hi8 w) (memWrite addr (lo8 w) s)) addr = lo8 w := by
    rw [memRead_memWrite_other (add_one_ne_self addr).symm, memRead_memWrite_same hm]
  have hhi : memRead (memWrite (addr + 1) (hi8 w) (memWrite addr (lo8 w) s)) (addr + 1) = hi8 w :=
    memRead_memWrite_same (memWrite_wf hm addr (lo8 w)) (addr + 1) (hi8 w)
  refine ⟨_, writeWord_ok (.inl hle), hlo, hhi, fun other h₀ h₁ => ?_, ?_⟩
  · rw [memRead_charge, memRead_memWrite_other h₁, memRead_memWrite_other h₀]
  · rw [readWord_ok (.inl hle), memRead_charge, memRead_charge, hlo, hhi, wordOf_hi8_lo8]
    rfl

/-- Settles O30: the store moves PC by 3, and the address it writes is that of byte `k` from there. -/
theorem nextFetchSeesStore : Obligations.NextFetchSeesStore := by
  intro s t k hm hk h
  obtain ⟨hcell, _, hframe⟩ := stored_of_exec_staAbs hm h
  have hpc : t.pc = s.pc + 3 := by rw [hframe]; rfl
  rw [instrBytes_getElem? t hk, hpc, hcell]

/-- Settles O10: the decoded instruction is that of its opcode's entry, and every entry agrees with the operation
the loop body runs. -/
theorem stepIsSpecLoopBody : Obligations.StepIsSpecLoopBody := by
  intro s hr
  rw [step_running hr, instrAt, exec_decodeOp, execEntry_reference, referenceLoopBody_eq]

/-- Settles O11: the pokes keep the core running and the decoder finds the placed instruction. -/
theorem placedInstructionRunsNext : Obligations.PlacedInstructionRunsNext := by
  intro s nbits w i hr hm hi
  have hrun : Running (s.withFetchWord nbits w) := (pokeBytes_status _ _ s).trans hr
  rw [step_running hrun, instrAt_withFetchWord hm hi]

end Sys2Proof.Machine

/-! PROOFS. The encoding of spec/30_encoding.md. The bytes of an instruction are as many of "opcode, low byte, high
byte" as the opcode's length says (R53); `decode` takes exactly these off the list. The two round trips are the two
directions of one equivalence, `decode_eq_ok_iff`. -/
namespace Sys2Proof

/-! ## The Unhandled bytes of R58 -/

/-- A byte has no pair exactly when R58 lists it. -/
theorem opcodeMap_eq_none_iff (op : Byte) : opcodeMap op = none ↔ isUnhandledByte op = true :=
  ⟨Machine.isUnhandledByte_of_opcodeMap_none op, by revert op; decide⟩

/-- Only an Unhandled instruction has no pair (R55). -/
theorem pair_eq_none_iff (i : Instr) : i.pair = none ↔ Machine.isReport i := by
  constructor
  · intro h
    cases i with
    | unhandled op => exact ⟨op, rfl⟩
    | _ => exact nomatch h
  · rintro ⟨op, rfl⟩
    rfl

/-- The opcode byte alone decides whether the instruction is Unhandled (R52). -/
theorem isReport_decodeOp_iff (op lo hi : Byte) :
    Machine.isReport (decodeOp op lo hi) ↔ isUnhandledByte op = true := by
  rw [← pair_eq_none_iff, decodeOp_pair, opcodeMap_eq_none_iff]

/-- A byte of R58's list decodes to the Unhandled instruction that carries it. -/
theorem decodeOp_of_isUnhandledByte {op : Byte} (h : isUnhandledByte op = true) (lo hi : Byte) :
    decodeOp op lo hi = .unhandled op := by
  obtain ⟨b, hb⟩ := (isReport_decodeOp_iff op lo hi).mpr h
  rw [hb, Machine.eq_of_decodeOp_eq_unhandled hb]

/-- Every decoded instruction is well-formed. -/
theorem wellFormed_decodeOp (op lo hi : Byte) : WellFormed (decodeOp op lo hi) = true := by
  cases h : decodeOp op lo hi with
  | unhandled b => exact Machine.isUnhandledByte_of_decodeOp h
  | _ => rfl

/-! ## The bytes of one instruction -/

theorem opcodeLength_le_three (op : Byte) : opcodeLength op ≤ 3 := by
  rcases Machine.opcodeLength_cases op with h | h | h <;> omega

/-- The bytes of a decoded instruction are those it was decoded from, to the opcode's length: no bit of the opcode
or of an operand is dropped (R53, R57). -/
theorem encode_decodeOp (op lo hi : Byte) :
    encode (decodeOp op lo hi) = [op, lo, hi].take (opcodeLength op) := by
  rw [← decodeOp_length op lo hi]
  unfold decodeOp
  split <;> simp [encode, Instr.length, Instr.pair, Mode.operandBytes, BitVec.toNat_eq, *]

/-- Byte `k` of an instruction's encoding; 0 past its end, where the decoder looks at nothing. -/
def encodedByte (i : Instr) (k : Nat) : Byte := (encode i).getD k 0

/-- Every well-formed instruction is the meaning of its own bytes: one case per shape of operand (R54, R56). -/
theorem decodeOp_encodedByte {i : Instr} (h : WellFormed i = true) :
    decodeOp (encodedByte i 0) (encodedByte i 1) (encodedByte i 2) = i := by
  cases i with
  | unhandled op => exact decodeOp_of_isUnhandledByte h 0 0
  | ldaImm b | ldaZp b | ldaZpX b | ldaIndX b | ldaIndY b | ldxImm b | ldxZp b | ldxZpY b | ldyImm b | ldyZp b
  | ldyZpX b | staZp b | staZpX b | staIndX b | staIndY b | stxZp b | stxZpY b | styZp b | styZpX b => rfl
  | ldaAbs w | ldaAbsX w | ldaAbsY w | ldxAbs w | ldxAbsY w | ldyAbs w | ldyAbsX w | staAbs w | staAbsX w
  | staAbsY w | stxAbs w | styAbs w | jsr w => exact congrArg _ (wordOf_hi8_lo8 w)

/-! ## The decoder on a list of bytes -/

/-- What the decoder takes off a list: an opcode and the bytes after it to the opcode's length (R53). -/
theorem decode_take_append (op lo hi : Byte) (rest : List Byte) :
    decode ([op, lo, hi].take (opcodeLength op) ++ rest) = .ok (decodeOp op lo hi, rest) := by
  rw [Machine.decodeOp_eq_within_length]
  rcases Machine.opcodeLength_cases op with hlen | hlen | hlen <;> simp [decode, hlen]

/-- Inversion of the decoder: it reads no list but these. -/
theorem eq_take_append_of_decode {bytes rest : List Byte} {i : Instr} (h : decode bytes = .ok (i, rest)) :
    ∃ op lo hi, i = decodeOp op lo hi ∧ bytes = [op, lo, hi].take (opcodeLength op) ++ rest := by
  unfold decode at h
  split at h
  · exact nomatch h
  · next op _ =>
    split at h
    · next hlen =>
      cases h
      exact ⟨op, 0, 0, rfl, by rw [hlen]; rfl⟩
    · next lo _ hlen =>
      cases h
      exact ⟨op, lo, 0, rfl, by rw [hlen]; rfl⟩
    · next lo hi _ hlen =>
      cases h
      exact ⟨op, lo, hi, rfl, by rw [hlen]; rfl⟩
    · exact nomatch h

/-- The decoder reads `i` from a list exactly when `i` is well-formed and the list is its bytes and the rest. -/
theorem decode_eq_ok_iff {bytes rest : List Byte} {i : Instr} :
    decode bytes = .ok (i, rest) ↔ WellFormed i = true ∧ encode i ++ rest = bytes := by
  constructor
  · intro h
    obtain ⟨op, lo, hi, rfl, rfl⟩ := eq_take_append_of_decode h
    exact ⟨wellFormed_decodeOp op lo hi, by rw [encode_decodeOp]⟩
  · rintro ⟨hwf, rfl⟩
    have h := decode_take_append (encodedByte i 0) (encodedByte i 1) (encodedByte i 2) rest
    rwa [← encode_decodeOp, decodeOp_encodedByte hwf] at h

/-- Three bytes always hold an instruction, and the bytes past its length are left (R55). -/
theorem decode_three_bytes (op lo hi : Byte) :
    decode [op, lo, hi] = .ok (decodeOp op lo hi, [op, lo, hi].drop (opcodeLength op)) := by
  have h := decode_take_append op lo hi ([op, lo, hi].drop (opcodeLength op))
  rwa [List.take_append_drop] at h

/-! ## The obligations -/

/-- Settles O5: the equivalence, from a well-formed instruction to the list of its bytes. -/
theorem decodeOfEncodeIsInstruction : Obligations.DecodeOfEncodeIsInstruction :=
  fun _ _ hwf => decode_eq_ok_iff.mpr ⟨hwf, rfl⟩

/-- Settles O6: the equivalence, from what the decoder reads. -/
theorem encodeOfDecodeIsBytes : Obligations.EncodeOfDecodeIsBytes :=
  fun _ _ _ => decode_eq_ok_iff.mp

/-- Settles O7: the instruction of the three bytes, its length the opcode's, and R58's list on the opcode. -/
theorem everyOpcodeByteDecodes : Obligations.EveryOpcodeByteDecodes := by
  refine ⟨fun op lo hi => ⟨_, _, decode_three_bytes op lo hi, ?_, isReport_decodeOp_iff op lo hi⟩,
    opcodeMap_eq_none_iff⟩
  rw [decodeOp_length, List.length_drop]
  exact Nat.add_sub_cancel' (opcodeLength_le_three op)

/-- Settles O8: the decoder evaluates to the written instruction on each of the eight words. -/
theorem writtenBytesDecode : Obligations.WrittenBytesDecode := by
  unfold Obligations.WrittenBytesDecode
  decide

/-- Settles O9: a running core executes the instruction at PC, which is what `decode` reads from its bytes. -/
theorem stepRunsDecodedInstruction : Obligations.StepRunsDecodedInstruction := by
  intro s i rest hr h
  rw [Machine.step_running hr, Machine.instrAt, Machine.decodeOp_eq_of_decode h]

end Sys2Proof

/-! PROOFS. The addressing modes of spec/40_addressing_modes.md: what the page-cross test says of an indexed sum, and
the word the zero-page pointer read answers. -/
namespace Sys2Proof.Machine

/-! ## The page-cross test (R63) -/

section PageCross

variable {p : Params} (base ea : Addr)

theorem pageCross_highByte (h : p.pageCrossTest = .highByte) :
    pageCross p base ea = true ↔ hi8 ea ≠ hi8 base := by
  simp only [pageCross, h, decide_eq_true_eq]

theorem pageCross_indexFF (h : p.pageCrossTest = .indexFF) :
    pageCross p base ea = true ↔ 0xFF ≤ (ea - base).toNat := by
  simp only [pageCross, h, decide_eq_true_eq]

end PageCross

/-- Subtracting the base from an indexed sum gives the index back, also where the sum wraps. -/
theorem toNat_indexed_sub_base (base : Addr) (idx : Byte) : (base + zext16 idx - base).toNat = idx.toNat := by
  rw [BitVec.add_comm, BitVec.add_sub_cancel, zext16_toNat]

/-- 0xFF is the largest index, so the bound of the IndexFF test is met by it alone. -/
theorem ff_le_toNat_iff (idx : Byte) : 0xFF ≤ idx.toNat ↔ idx = 0xFF := by
  bv_omega

/-! ## The zero-page pointer (R64) -/

section ZeroPagePointer

variable {s : State} (p : Byte)

theorem zpPointer_linear (h : s.params.zpPtrHi = .linear) :
    zpPointer p s = wordOf (memRead s (zext16 p + 1)) (memRead s (zext16 p)) := by
  simp only [zpPointer, h]

theorem zpPointer_zeroPage (h : s.params.zpPtrHi = .zeroPage) :
    zpPointer p s = wordOf (memRead s (zext16 (p + 1))) (memRead s (zext16 p)) := by
  simp only [zpPointer, h]

end ZeroPagePointer

/-! ## The obligations -/

/-- Settles O13: each parameter value's test, at the indexed sum; under IndexFF the difference is the index. -/
theorem pageCrossFollowsTestParameter : Obligations.PageCrossFollowsTestParameter := by
  intro p base idx
  constructor
  · exact pageCross_highByte base (base + zext16 idx)
  · intro h
    rw [pageCross_indexFF base _ h, toNat_indexed_sub_base, ff_le_toNat_iff]

/-- Settles O14: the read answers the pointer word and charges 2 cycles, whatever the pointer; the word is the one
ZP_PTR_HI selects. -/
theorem zeroPagePointerRead : Obligations.ZeroPagePointerRead := by
  intro p s
  constructor <;> intro h
  · rw [readZpPtr_ok, zpPointer_linear p h]
    rfl
  · rw [readZpPtr_ok, zpPointer_zeroPage p h]
    rfl

end Sys2Proof.Machine

/-! PROOFS. The budget of `execute` (spec/41_dispatch.md R76 to R81): a budget of 0, the overrun law, and a call taken
apart at its first instruction. An instruction's cost `s.remaining - t.remaining` is that of the step `s` to `t` from
any counter value (`step_setRemaining`). -/
namespace Sys2Proof.Machine

/-! ## The counter -/

section Counter

variable (s : State)

@[simp] theorem setRemaining_remaining (v : Int) : (setRemaining v s).remaining = v := rfl

@[simp] theorem setRemaining_setRemaining (v w : Int) :
    setRemaining v (setRemaining w s) = setRemaining v s := rfl

@[simp] theorem setRemaining_self : setRemaining s.remaining s = s := rfl

end Counter

/-! ## The loop at a spent budget -/

section Loop

variable {q fuel : Nat} {s : State}

/-- With nothing left the loop ends, whatever the fuel. -/
theorem executeLoop_spent (h : s.remaining ≤ 0) : executeLoop q fuel s = ⟨q - s.remaining, .ok, s⟩ := by
  cases fuel with
  | zero => rfl
  | succ fuel => exact executeLoop_done (by omega)

/-- The count of a loop that ends Ok. An instruction starts with 1 cycle left or more and takes 6 or fewer, so the
counter ends in -5 to 0, and in no round falls below -5. -/
theorem executeLoop_used_of_ok (hlo : -5 ≤ s.remaining) (hfuel : s.remaining ≤ fuel)
    (hok : (executeLoop q fuel s).outcome = .ok) :
    (q : Int) ≤ (executeLoop q fuel s).used ∧ (executeLoop q fuel s).used ≤ q + 5 := by
  induction fuel generalizing s with
  | zero =>
    rw [executeLoop_spent (by omega)]
    dsimp only
    omega
  | succ fuel ih =>
    by_cases h0 : 0 < s.remaining
    · rcases step_cases s with ⟨a, b, _, hf⟩ | ⟨_, t, he, hn⟩ | ⟨_, _, a, b, hf⟩
      · rw [executeLoop_fault h0 hf] at hok
        exact nomatch hok
      · rcases haltOn_cases s.params (memRead s s.pc) s.pc with hh | ⟨_, _, hh⟩
        · rw [executeLoop_next h0 hn hh] at hok ⊢
          have hcost := he.cycles
          exact ih (by omega) (by omega) hok
        · rw [executeLoop_halt h0 hn hh] at hok
          exact nomatch hok
      · rw [executeLoop_fault h0 hf] at hok
        exact nomatch hok
    · rw [executeLoop_done h0]
      dsimp only
      omega

end Loop

/-! ## The Halt test (R125) -/

section HaltTest

variable {p : Params} {op : Byte} (addr : Addr)

theorem haltOn_eq_invalidOpcode (hp : p.illegalPolicy = .halt) (hop : isUnhandledByte op = true) :
    haltOn p op addr = some (.invalidOpcode op addr) :=
  if_pos ⟨hp, (opcodeMap_eq_none_iff op).mpr hop⟩

theorem haltOn_eq_none (h : p.illegalPolicy = .halt → isUnhandledByte op = false) :
    haltOn p op addr = none :=
  if_neg fun ⟨hp, hop⟩ => nomatch (h hp).symm.trans ((opcodeMap_eq_none_iff op).mp hop)

end HaltTest

/-! ## A call taken apart at its first instruction -/

section FirstInstruction

variable {s t : State} {k : Nat}

/-- The first round of a call whose first instruction finishes and does not halt it. -/
theorem executeLoop_first_next (hk : 0 < k) (hs : step s = .next t)
    (hh : haltOn s.params (memRead s s.pc) s.pc = none) :
    executeLoop k k (setRemaining k s) =
      executeLoop k (k - 1) (setRemaining (k - (s.remaining - t.remaining)) t) := by
  obtain ⟨n, rfl⟩ := Nat.exists_eq_add_one.mpr hk
  exact executeLoop_next (Int.natCast_pos.mpr hk) (step_setRemaining _ hs) hh

/-- A call that halts on its first instruction (R125). -/
theorem hostExecute_halt {stop : ExecuteOutcome} (hk : 0 < k) (hs : step s = .next t)
    (hh : haltOn s.params (memRead s s.pc) s.pc = some stop) :
    hostExecute k s = ⟨s.remaining - t.remaining, stop, setRemaining s.remaining t⟩ := by
  obtain ⟨n, rfl⟩ := Nat.exists_eq_add_one.mpr hk
  obtain ⟨hr, _, _⟩ := step_next hs
  rw [hostExecute_running _ hr,
    executeLoop_halt (s := setRemaining (n + 1 : Nat) s) (Int.natCast_pos.mpr hk) (step_setRemaining _ hs) hh]
  simp only [setRemaining_remaining, setRemaining_setRemaining, Int.sub_sub_self]

/-- A call whose budget its first instruction meets (R76). -/
theorem hostExecute_met (hk : 0 < k) (hs : step s = .next t)
    (hh : haltOn s.params (memRead s s.pc) s.pc = none) (hle : (k : Int) ≤ s.remaining - t.remaining) :
    hostExecute k s = ⟨s.remaining - t.remaining, .ok, setRemaining s.remaining t⟩ := by
  obtain ⟨hr, _, _⟩ := step_next hs
  rw [hostExecute_running k hr, executeLoop_first_next hk hs hh,
    executeLoop_spent (Int.sub_nonpos_of_le hle)]
  simp only [setRemaining_remaining, setRemaining_setRemaining, Int.sub_sub_self]

/-- A call that goes on after its first instruction is the call with the rest of the budget, but for its count: the
rest is fuel enough, and the request enters the count alone. -/
theorem hostExecute_rest {rest : Nat} (hk : 0 < k) (hs : step s = .next t)
    (hh : haltOn s.params (memRead s s.pc) s.pc = none) (hrest : (k : Int) = s.remaining - t.remaining + rest) :
    (hostExecute k s).outcome = (hostExecute rest (setRemaining s.remaining t)).outcome ∧
    (hostExecute k s).state = (hostExecute rest (setRemaining s.remaining t)).state ∧
    ((hostExecute rest (setRemaining s.remaining t)).outcome ≠ .faulted →
      (hostExecute k s).used =
        s.remaining - t.remaining + (hostExecute rest (setRemaining s.remaining t)).used) := by
  obtain ⟨hr, _, he⟩ := step_next hs
  have ht : Running (setRemaining s.remaining t) := (running_of_step_next hs : Running t)
  have hcost := he.cycles
  have hloop : executeLoop k k (setRemaining k s) = executeLoop k rest (setRemaining rest t) := by
    rw [executeLoop_first_next hk hs hh, show k - (s.remaining - t.remaining) = (rest : Int) by omega]
    exact executeLoop_fuel (Int.le_refl _) (by omega)
  obtain ⟨hout, hstate, hused⟩ := executeLoop_request k rest rest (setRemaining rest t)
  rw [hostExecute_running k hr, hostExecute_running rest ht, setRemaining_setRemaining, hloop]
  refine ⟨hout, congrArg (setRemaining s.remaining) hstate, fun hf => (hused hf).trans ?_⟩
  dsimp only
  omega

end FirstInstruction

/-! ## The obligations -/

/-- Settles O46: a stopped core's call is not Ok, and a running core's counter starts at the budget. -/
theorem executeOverrunBounded : Obligations.ExecuteOverrunBounded := by
  intro s k _ hok
  cases hst : s.status with
  | faulted a b =>
    rw [hostExecute_faulted k hst] at hok
    exact nomatch hok
  | running =>
    rw [hostExecute_running k hst] at hok ⊢
    exact executeLoop_used_of_ok (show (-5 : Int) ≤ k by omega) (Int.le_refl _) hok

/-- Settles O51: the Halt test decides between the halting call and the two others, the budget between these. -/
theorem executeContinuesAfterInstruction : Obligations.ExecuteContinuesAfterInstruction := by
  intro s t k _ hk hs
  refine ⟨fun hp hop => hostExecute_halt hk hs (haltOn_eq_invalidOpcode s.pc hp hop), fun hgo => ?_⟩
  have hh := haltOn_eq_none s.pc hgo
  exact ⟨hostExecute_met hk hs hh, fun rest _ => hostExecute_rest hk hs hh⟩

/-- Settles O45: a stopped core's call changes nothing, and a running core's loop is spent before its first round. -/
theorem executeZeroChangesNothing : Obligations.ExecuteZeroChangesNothing := by
  intro s
  cases hst : s.status with
  | faulted a b =>
    rw [hostExecute_faulted 0 hst]
    exact ⟨rfl, rfl⟩
  | running =>
    rw [hostExecute_running 0 hst, executeLoop_spent (Int.le_refl 0)]
    exact ⟨rfl, rfl⟩

end Sys2Proof.Machine

/-! PROOFS. The load family of spec/42_load.md: what the resolver answers a load in each addressing mode, the load in
each mode into any of the three registers, and what a finished instruction does to the flags and to memory. -/
namespace Sys2Proof.Machine

/-! ## The resolver, one lemma per mode (R66 to R73) -/

section Resolve

variable (p : Purpose) (s : State)

theorem resolve_zeroPage (b : Byte) : resolve (.zeroPage b) p s = .ok (zext16 b, charge 0 s) := by
  rw [charge_zero]
  rfl

theorem resolve_zeroPageX (b : Byte) : resolve (.zeroPageX b) p s = .ok (zext16 (b + s.x), charge 1 s) := rfl

theorem resolve_zeroPageY (b : Byte) : resolve (.zeroPageY b) p s = .ok (zext16 (b + s.y), charge 1 s) := rfl

theorem resolve_absolute (w : Addr) : resolve (.absolute w) p s = .ok (w, charge 0 s) := by
  rw [charge_zero]
  rfl

theorem resolve_indirectX (b : Byte) :
    resolve (.indirectX b) p s = .ok (zpPointer (b + s.x) s, charge 3 s) :=
  resolveIndirectX_ok b s

end Resolve

section ResolveIndexed

variable {s : State} {w : Addr} {b : Byte}

theorem resolve_absoluteX_load (h : CanIndex w s.x s) :
    resolve (.absoluteX w) .load s = .ok (w + zext16 s.x, charge (crossCycle w s.x s) s) :=
  resolveAbsIndexed_ok .load h

theorem resolve_absoluteY_load (h : CanIndex w s.y s) :
    resolve (.absoluteY w) .load s = .ok (w + zext16 s.y, charge (crossCycle w s.y s) s) :=
  resolveAbsIndexed_ok .load h

/-- A load pays for a page cross whatever STORE_INDY_FIXUP is. -/
theorem indirectYCycles_load (b : Byte) (s : State) :
    indirectYCycles b .load s = 2 + crossCycle (zpPointer b s) s.y s := by
  rw [indirectYCycles, if_pos (Or.inl rfl)]

theorem resolve_indirectY_load (h : CanIndex (zpPointer b s) s.y s) :
    resolve (.indirectY b) .load s =
      .ok (zpPointer b s + zext16 s.y, charge (2 + crossCycle (zpPointer b s) s.y s) s) := by
  rw [resolve, resolveIndirectY_ok .load h, indirectYCycles_load]

end ResolveIndexed

/-! ## A load in each mode (R84)

The operand fetches change PC and the counter alone, so the resolver reads the index registers and the pointer of the
state before the instruction. -/

section Load

variable {s : State} {w : Addr} {b : Byte} (r : Reg)

theorem load_zeroPage (h : CanFetch 2 s) :
    load r (.zeroPage b) s = .ok (loaded r (memRead s (zext16 b)) 2 3 s) :=
  load_ok (o := .zeroPage b) h (resolve_zeroPage .load _ b)

theorem load_zeroPageX (h : CanFetch 2 s) :
    load r (.zeroPageX b) s = .ok (loaded r (memRead s (zext16 (b + s.x))) 2 4 s) :=
  load_ok (o := .zeroPageX b) h (resolve_zeroPageX .load _ b)

theorem load_zeroPageY (h : CanFetch 2 s) :
    load r (.zeroPageY b) s = .ok (loaded r (memRead s (zext16 (b + s.y))) 2 4 s) :=
  load_ok (o := .zeroPageY b) h (resolve_zeroPageY .load _ b)

theorem load_absolute (h : CanFetch 3 s) :
    load r (.absolute w) s = .ok (loaded r (memRead s w) 3 4 s) :=
  load_ok (o := .absolute w) h (resolve_absolute .load _ w)

theorem load_indirectX (h : CanFetch 2 s) :
    load r (.indirectX b) s = .ok (loaded r (memRead s (zpPointer (b + s.x) s)) 2 6 s) :=
  load_ok (o := .indirectX b) h (resolve_indirectX .load _ b)

/-- `load_ok` with the cycles given as their sum. -/
theorem load_ok_of_cycles {o : Operand} {ea : Addr} {k cycles : Nat} (hf : CanFetch (1 + operandBytes o) s)
    (hr : resolve o .load (passed (1 + operandBytes o) (1 + operandBytes o) s) =
      .ok (ea, charge k (passed (1 + operandBytes o) (1 + operandBytes o) s)))
    (hc : 1 + operandBytes o + (k + 1) = cycles) :
    load r o s = .ok (loaded r (memRead s ea) (1 + operandBytes o) cycles s) :=
  hc ▸ load_ok hf hr

theorem load_absoluteX (hf : CanFetch 3 s) (hi : CanIndex w s.x s) :
    load r (.absoluteX w) s = .ok (loaded r (memRead s (w + zext16 s.x)) 3 (4 + crossCycle w s.x s) s) :=
  load_ok_of_cycles r (o := .absoluteX w) (k := crossCycle w s.x s) hf (resolve_absoluteX_load hi)
    (by rw [operandBytes]; omega)

theorem load_absoluteY (hf : CanFetch 3 s) (hi : CanIndex w s.y s) :
    load r (.absoluteY w) s = .ok (loaded r (memRead s (w + zext16 s.y)) 3 (4 + crossCycle w s.y s) s) :=
  load_ok_of_cycles r (o := .absoluteY w) (k := crossCycle w s.y s) hf (resolve_absoluteY_load hi)
    (by rw [operandBytes]; omega)

theorem load_indirectY (hf : CanFetch 2 s) (hi : CanIndex (zpPointer b s) s.y s) :
    load r (.indirectY b) s = .ok (loaded r (memRead s (zpPointer b s + zext16 s.y)) 2
      (5 + crossCycle (zpPointer b s) s.y s) s) :=
  load_ok_of_cycles r (o := .indirectY b) (k := 2 + crossCycle (zpPointer b s) s.y s) hf
    (resolve_indirectY_load hi) (by rw [operandBytes]; omega)

theorem load_absoluteX_error (hf : CanFetch 3 s) (hi : ¬ CanIndex w s.x s) :
    load r (.absoluteX w) s = .error (.addressOverflow w s.x.toNat) :=
  load_resolve_error (o := .absoluteX w) hf (resolveAbsIndexed_error .load hi)

theorem load_absoluteY_error (hf : CanFetch 3 s) (hi : ¬ CanIndex w s.y s) :
    load r (.absoluteY w) s = .error (.addressOverflow w s.y.toNat) :=
  load_resolve_error (o := .absoluteY w) hf (resolveAbsIndexed_error .load hi)

theorem load_indirectY_error (hf : CanFetch 2 s) (hi : ¬ CanIndex (zpPointer b s) s.y s) :
    load r (.indirectY b) s = .error (.addressOverflow (zpPointer b s) s.y.toNat) :=
  load_resolve_error (o := .indirectY b) hf (resolveIndirectY_error .load hi)

/-! A fetch of the mode's bytes that runs past 0xFFFF, whatever register is loaded (R37). -/

theorem load_two_bytes_error {o : Operand} (ho : operandBytes o = 1) (h : ¬ CanFetch 2 s) :
    load r o s = .error (.addressOverflow 0xFFFF 1) :=
  load_fetch_error (by rwa [ho])

theorem load_three_bytes_error {o : Operand} (ho : operandBytes o = 2) (h : ¬ CanFetch 3 s) :
    load r o s = .error (.addressOverflow 0xFFFF 1) :=
  load_fetch_error (by rwa [ho])

end Load

/-! ## What a load leaves in the state -/

section Loaded

variable (s : State) (r : Reg) (w : Byte) (len k : Nat)

@[simp] theorem getReg_loaded_same : getReg r (loaded r w len k s) = w := getReg_setReg_same _ r w
@[simp] theorem loaded_z : (loaded r w len k s).z = decide (w = 0x00) := setReg_z _ r w
@[simp] theorem loaded_n : (loaded r w len k s).n = w.getLsbD 7 := setReg_n _ r w
@[simp] theorem loaded_c : (loaded r w len k s).c = s.c := setReg_c _ r w
@[simp] theorem loaded_i : (loaded r w len k s).i = s.i := setReg_i _ r w
@[simp] theorem loaded_d : (loaded r w len k s).d = s.d := setReg_d _ r w
@[simp] theorem loaded_b : (loaded r w len k s).b = s.b := setReg_b _ r w
@[simp] theorem loaded_v : (loaded r w len k s).v = s.v := setReg_v _ r w
@[simp] theorem memRead_loaded (addr : Addr) : memRead (loaded r w len k s) addr = memRead s addr :=
  memRead_setReg r w _ addr

end Loaded

/-! ## The flags and memory after a finished instruction -/

section Effects

variable {i : Instr} {s t : State}

/-- A store-family instruction loads no register. -/
theorem loadTarget_eq_none_of_storeSource {r : Reg} (h : storeSource i = some r) : loadTarget i = none := by
  cases i with
  | staZp | staZpX | staAbs | staAbsX | staAbsY | staIndX | staIndY | stxZp | stxZpY | stxAbs | styZp | styZpX
  | styAbs => rfl
  | _ => exact nomatch h

/-- After a load Z and N are those of the register it loaded (R83). -/
theorem Effect.zn_of_loadTarget {r : Reg} (h : Effect i s t) (hr : loadTarget i = some r) :
    t.z = decide (getReg r t = 0x00) ∧ t.n = (getReg r t).getLsbD 7 := by
  cases h with
  | load q v k hq =>
    obtain rfl : q = r := Option.some.inj (hq.symm.trans hr)
    simp only [getReg_loaded_same, loaded_z, loaded_n, and_self]
  | store q ea k hq => exact nomatch (loadTarget_eq_none_of_storeSource hq).symm.trans hr
  | call target hi | report op hi => subst hi; exact nomatch hr

/-- Nothing but a load writes Z or N (R83). -/
theorem Effect.zn_of_loadTarget_eq_none (h : Effect i s t) (hn : loadTarget i = none) :
    t.z = s.z ∧ t.n = s.n := by
  cases h with
  | load r v k hr => exact nomatch hr.symm.trans hn
  | store | call | report => exact ⟨rfl, rfl⟩

/-- No instruction writes C, I, D, B or V (R22). -/
theorem Effect.cidbv (h : Effect i s t) : t.c = s.c ∧ t.i = s.i ∧ t.d = s.d ∧ t.b = s.b ∧ t.v = s.v := by
  cases h with
  | load r v k =>
    exact ⟨loaded_c s r v _ k, loaded_i s r v _ k, loaded_d s r v _ k, loaded_b s r v _ k, loaded_v s r v _ k⟩
  | store | call | report => exact ⟨rfl, rfl, rfl, rfl, rfl⟩

/-- Memory is written by stores and JSR only. -/
theorem Effect.memRead_of_not_writer (h : Effect i s t) (hs : storeSource i = none) (hc : ¬ isCall i)
    (addr : Addr) : memRead t addr = memRead s addr := by
  cases h with
  | load r v k => exact memRead_loaded s r v _ k addr
  | store r ea k hr => exact nomatch hr.symm.trans hs
  | call target hi => exact absurd ⟨target, hi⟩ hc
  | report => rfl

end Effects

/-! ## The obligations -/

/-- Settles O16: the fetch of 2 bytes decides, and one lemma serves the three registers. -/
theorem immediateLoads : Obligations.ImmediateLoads := by
  intro s v
  refine ⟨fun h => ?_, fun h => ?_, rfl, rfl, rfl⟩
  · refine ⟨?_, ?_, ?_⟩ <;> exact congrArg finish (loadImmediate_ok h)
  · refine ⟨?_, ?_, ?_⟩ <;> exact congrArg finish (loadImmediate_error h)

/-- Settles O17: the ZeroPage load, for the three registers. -/
theorem zeroPageLoads : Obligations.ZeroPageLoads := by
  intro s b
  refine ⟨fun h => ?_, fun h => ?_, rfl, rfl, rfl⟩
  · refine ⟨?_, ?_, ?_⟩ <;> exact congrArg finish (load_zeroPage _ h)
  · refine ⟨?_, ?_, ?_⟩ <;> exact congrArg finish (load_two_bytes_error _ rfl h)

/-- Settles O18: the ZeroPageX load into A and Y, the ZeroPageY load into X. -/
theorem zeroPageIndexedLoads : Obligations.ZeroPageIndexedLoads := by
  intro s b
  refine ⟨fun h => ?_, fun h => ?_, rfl, rfl, rfl⟩
  · exact ⟨congrArg finish (load_zeroPageX .a h), congrArg finish (load_zeroPageY .x h),
      congrArg finish (load_zeroPageX .y h)⟩
  · refine ⟨?_, ?_, ?_⟩ <;> exact congrArg finish (load_two_bytes_error _ rfl h)

/-- Settles O19: the Absolute load, for the three registers. -/
theorem absoluteLoads : Obligations.AbsoluteLoads := by
  intro s w
  refine ⟨fun h => ?_, fun h => ?_, rfl, rfl, rfl⟩
  · refine ⟨?_, ?_, ?_⟩ <;> exact congrArg finish (load_absolute _ h)
  · refine ⟨?_, ?_, ?_⟩ <;> exact congrArg finish (load_three_bytes_error _ rfl h)

/-- Settles O20: the AbsoluteX load into A and Y and the AbsoluteY load into A and X; the index sum decides once the
fetch has succeeded. -/
theorem absoluteIndexedLoads : Obligations.AbsoluteIndexedLoads := by
  intro s w
  refine ⟨fun hf hi => ?_, fun hf hi => ?_, fun hf hi => ?_, fun hf hi => ?_, fun h => ?_, rfl, rfl, rfl, rfl⟩
  · constructor <;> exact congrArg finish (load_absoluteX _ hf hi)
  · constructor <;> exact congrArg finish (load_absoluteY _ hf hi)
  · constructor <;> exact congrArg finish (load_absoluteX_error _ hf hi)
  · constructor <;> exact congrArg finish (load_absoluteY_error _ hf hi)
  · refine ⟨?_, ?_, ?_, ?_⟩ <;> exact congrArg finish (load_three_bytes_error _ rfl h)

/-- Settles O21: the IndirectX load into A. -/
theorem indirectXLoad : Obligations.IndirectXLoad :=
  fun _ _ => ⟨fun h => congrArg finish (load_indirectX .a h),
    fun h => congrArg finish (load_two_bytes_error .a rfl h), rfl⟩

/-- Settles O22: the IndirectY load into A; the index sum decides once the fetch has succeeded. -/
theorem indirectYLoad : Obligations.IndirectYLoad :=
  fun _ _ => ⟨fun hf hi => congrArg finish (load_indirectY .a hf hi),
    fun hf hi => congrArg finish (load_indirectY_error .a hf hi),
    fun h => congrArg finish (load_two_bytes_error .a rfl h), rfl⟩

/-- Settles O34: by the four effects of a finished instruction, of which a load alone writes Z and N. -/
theorem onlyLoadsWriteZeroNegative : Obligations.OnlyLoadsWriteZeroNegative := by
  intro i s t h
  have he := effect_of_exec h
  exact ⟨fun _ => he.zn_of_loadTarget, he.zn_of_loadTarget_eq_none, he.cidbv⟩

/-- Settles O36: by the four effects of a finished instruction, of which a store and a call alone write memory. -/
theorem onlyStoresAndCallsWriteMemory : Obligations.OnlyStoresAndCallsWriteMemory :=
  fun _ _ _ h => (effect_of_exec h).memRead_of_not_writer

end Sys2Proof.Machine

/-! PROOFS. The store family of spec/43_store.md: what the resolver answers a store in the indexed modes, where it
differs from a load's answer, the store of any of the three registers in each mode, and a store followed by a load. -/
namespace Sys2Proof.Machine

/-! ## The resolver for a store (R70, R71, R73)

No page cross is charged here but IndirectY's under STORE_INDY_FIXUP = Conditional. -/

section ResolveStore

variable {s : State} {w : Addr} {b : Byte}

theorem resolve_absoluteX_store (h : CanIndex w s.x s) :
    resolve (.absoluteX w) .store s = .ok (w + zext16 s.x, charge 0 s) :=
  resolveAbsIndexed_ok .store h

theorem resolve_absoluteY_store (h : CanIndex w s.y s) :
    resolve (.absoluteY w) .store s = .ok (w + zext16 s.y, charge 0 s) :=
  resolveAbsIndexed_ok .store h

/-- Under Always the resolver charges the pointer read alone: the fixed cycle is charged after the write. -/
theorem indirectYCycles_store_always (b : Byte) (h : s.params.storeIndyFixup = .always) :
    indirectYCycles b .store s = 2 := by
  rw [indirectYCycles, if_neg (by simp [h])]

theorem indirectYCycles_store_conditional (b : Byte) (h : s.params.storeIndyFixup = .conditional) :
    indirectYCycles b .store s = 2 + crossCycle (zpPointer b s) s.y s := by
  rw [indirectYCycles, if_pos (Or.inr h)]

end ResolveStore

/-! ## The fixed cycle of a store (R104) -/

section Fixup

variable {p : Params} (b : Byte)

theorem fixupCycle_indirectY_always (h : p.storeIndyFixup = .always) : fixupCycle p (.indirectY b) = 1 := by
  simp [fixupCycle, storeFixup, h]

theorem fixupCycle_indirectY_conditional (h : p.storeIndyFixup = .conditional) :
    fixupCycle p (.indirectY b) = 0 := by
  simp [fixupCycle, storeFixup, h]

end Fixup

/-! ## A store in each mode (R104)

As for a load, the resolver reads the index registers and the pointer of the state before the instruction. -/

section Store

variable {s : State} {w : Addr} {b : Byte} (r : Reg)

theorem store_zeroPage (h : CanFetch 2 s) :
    store r (.zeroPage b) s = .ok (storedState (zext16 b) (getReg r s) 2 3 s) :=
  store_ok (o := .zeroPage b) h (resolve_zeroPage .store _ b)

theorem store_zeroPageX (h : CanFetch 2 s) :
    store r (.zeroPageX b) s = .ok (storedState (zext16 (b + s.x)) (getReg r s) 2 4 s) :=
  store_ok (o := .zeroPageX b) h (resolve_zeroPageX .store _ b)

theorem store_zeroPageY (h : CanFetch 2 s) :
    store r (.zeroPageY b) s = .ok (storedState (zext16 (b + s.y)) (getReg r s) 2 4 s) :=
  store_ok (o := .zeroPageY b) h (resolve_zeroPageY .store _ b)

theorem store_absolute (h : CanFetch 3 s) :
    store r (.absolute w) s = .ok (storedState w (getReg r s) 3 4 s) :=
  store_ok (o := .absolute w) h (resolve_absolute .store _ w)

theorem store_absoluteX (hf : CanFetch 3 s) (hi : CanIndex w s.x s) :
    store r (.absoluteX w) s = .ok (storedState (w + zext16 s.x) (getReg r s) 3 5 s) :=
  store_ok (o := .absoluteX w) hf (resolve_absoluteX_store hi)

theorem store_absoluteY (hf : CanFetch 3 s) (hi : CanIndex w s.y s) :
    store r (.absoluteY w) s = .ok (storedState (w + zext16 s.y) (getReg r s) 3 5 s) :=
  store_ok (o := .absoluteY w) hf (resolve_absoluteY_store hi)

theorem store_indirectX (h : CanFetch 2 s) :
    store r (.indirectX b) s = .ok (storedState (zpPointer (b + s.x) s) (getReg r s) 2 6 s) :=
  store_ok (o := .indirectX b) h (resolve_indirectX .store _ b)

/-- The IndirectY store under both values of STORE_INDY_FIXUP, its cycles as the resolver and the fixed cycle give
them. -/
theorem store_indirectY (hf : CanFetch 2 s) (hi : CanIndex (zpPointer b s) s.y s) :
    store r (.indirectY b) s = .ok (storedState (zpPointer b s + zext16 s.y) (getReg r s) 2
      (2 + (indirectYCycles b .store s + (1 + fixupCycle s.params (.indirectY b)))) s) :=
  store_ok (o := .indirectY b) hf (resolveIndirectY_ok .store hi)

theorem store_indirectY_always (hf : CanFetch 2 s) (hi : CanIndex (zpPointer b s) s.y s)
    (hp : s.params.storeIndyFixup = .always) :
    store r (.indirectY b) s = .ok (storedState (zpPointer b s + zext16 s.y) (getReg r s) 2 6 s) := by
  rw [store_indirectY r hf hi, indirectYCycles_store_always b hp, fixupCycle_indirectY_always b hp]

theorem store_indirectY_conditional (hf : CanFetch 2 s) (hi : CanIndex (zpPointer b s) s.y s)
    (hp : s.params.storeIndyFixup = .conditional) :
    store r (.indirectY b) s = .ok (storedState (zpPointer b s + zext16 s.y) (getReg r s) 2
      (5 + crossCycle (zpPointer b s) s.y s) s) := by
  have hc (c : Nat) : 2 + (2 + c + (1 + 0)) = 5 + c := by omega
  rw [store_indirectY r hf hi, indirectYCycles_store_conditional b hp, fixupCycle_indirectY_conditional b hp, hc]

theorem store_absoluteX_error (hf : CanFetch 3 s) (hi : ¬ CanIndex w s.x s) :
    store r (.absoluteX w) s = .error (.addressOverflow w s.x.toNat) :=
  store_resolve_error (o := .absoluteX w) hf (resolveAbsIndexed_error .store hi)

theorem store_absoluteY_error (hf : CanFetch 3 s) (hi : ¬ CanIndex w s.y s) :
    store r (.absoluteY w) s = .error (.addressOverflow w s.y.toNat) :=
  store_resolve_error (o := .absoluteY w) hf (resolveAbsIndexed_error .store hi)

theorem store_indirectY_error (hf : CanFetch 2 s) (hi : ¬ CanIndex (zpPointer b s) s.y s) :
    store r (.indirectY b) s = .error (.addressOverflow (zpPointer b s) s.y.toNat) :=
  store_resolve_error (o := .indirectY b) hf (resolveIndirectY_error .store hi)

/-! A fetch of the mode's bytes that runs past 0xFFFF, whatever register is stored (R37). -/

theorem store_two_bytes_error {o : Operand} (ho : operandBytes o = 1) (h : ¬ CanFetch 2 s) :
    store r o s = .error (.addressOverflow 0xFFFF 1) :=
  store_fetch_error (by rwa [ho])

theorem store_three_bytes_error {o : Operand} (ho : operandBytes o = 2) (h : ¬ CanFetch 3 s) :
    store r o s = .error (.addressOverflow 0xFFFF 1) :=
  store_fetch_error (by rwa [ho])

end Store

/-- A store that ends in `storedState` finishes, and in a canonical memory does what the rules say of a store. -/
theorem exists_next_stored {x : Except Fault State} {s : State} {ea : Addr} {v : Byte} {len cycles : Nat}
    (hm : s.mem.wf = true) (h : x = .ok (storedState ea v len cycles s)) :
    ∃ t, finish x = .next t ∧ Stored ea v len cycles s t :=
  ⟨_, congrArg finish h, stored_storedState hm ea v len cycles⟩

/-! ## A store, then a load from the same address -/

section StoreThenLoad

variable {s t u : State} {r : Reg} {w : Addr}

/-- What a finished Absolute store leaves. -/
theorem eq_storedState_of_store_absolute (h : store r (.absolute w) s = .ok t) :
    t = storedState w (getReg r s) 3 4 s := by
  by_cases hf : CanFetch 3 s
  · exact (Except.ok.inj ((store_absolute r hf).symm.trans h)).symm
  · exact nomatch (store_three_bytes_error r rfl hf).symm.trans h

/-- What a finished Absolute load leaves. -/
theorem eq_loaded_of_load_absolute (h : load r (.absolute w) s = .ok t) :
    t = loaded r (memRead s w) 3 4 s := by
  by_cases hf : CanFetch 3 s
  · exact (Except.ok.inj ((load_absolute r hf).symm.trans h)).symm
  · exact nomatch (load_three_bytes_error r rfl hf).symm.trans h

theorem getFlag_storedState (f : FlagName) (ea : Addr) (v : Byte) (len cycles : Nat) (s : State) :
    getFlag f (storedState ea v len cycles s) = getFlag f s := by
  cases f <;> rfl

/-- The round trip of R105 for any of the three registers: the load reads the byte the store wrote. -/
theorem store_then_load_absolute (hm : s.mem.wf = true)
    (hs : finish (store r (.absolute w) s) = .next t) (hl : finish (load r (.absolute w) t) = .next u) :
    getReg r u = getReg r s ∧ (∀ f, getFlag f t = getFlag f s) ∧ u.z = decide (getReg r s = 0) ∧
      u.n = (getReg r s).getLsbD 7 := by
  obtain rfl := eq_storedState_of_store_absolute (finish_eq_next.mp hs)
  obtain ⟨hcell, -, -⟩ := stored_storedState hm w (getReg r s) 3 4
  have hu := eq_loaded_of_load_absolute (finish_eq_next.mp hl)
  rw [hcell] at hu
  subst hu
  exact ⟨getReg_loaded_same .., fun f => getFlag_storedState f .., loaded_z .., loaded_n ..⟩

end StoreThenLoad

/-! ## The obligations -/

/-- Settles O23: the ZeroPage store, for the three registers. -/
theorem zeroPageStores : Obligations.ZeroPageStores := by
  intro s b
  refine ⟨fun hm h => ?_, fun h => ?_, rfl, rfl, rfl⟩
  · exact ⟨exists_next_stored hm (store_zeroPage .a h), exists_next_stored hm (store_zeroPage .x h),
      exists_next_stored hm (store_zeroPage .y h)⟩
  · refine ⟨?_, ?_, ?_⟩ <;> exact congrArg finish (store_two_bytes_error _ rfl h)

/-- Settles O24: the ZeroPageX store of A and Y, the ZeroPageY store of X. -/
theorem zeroPageIndexedStores : Obligations.ZeroPageIndexedStores := by
  intro s b
  refine ⟨fun hm h => ?_, fun h => ?_, rfl, rfl, rfl⟩
  · exact ⟨exists_next_stored hm (store_zeroPageX .a h), exists_next_stored hm (store_zeroPageY .x h),
      exists_next_stored hm (store_zeroPageX .y h)⟩
  · refine ⟨?_, ?_, ?_⟩ <;> exact congrArg finish (store_two_bytes_error _ rfl h)

/-- Settles O25: the Absolute store, for the three registers. -/
theorem absoluteStores : Obligations.AbsoluteStores := by
  intro s w
  refine ⟨fun hm h => ?_, fun h => ?_, rfl, rfl, rfl⟩
  · exact ⟨exists_next_stored hm (store_absolute .a h), exists_next_stored hm (store_absolute .x h),
      exists_next_stored hm (store_absolute .y h)⟩
  · refine ⟨?_, ?_, ?_⟩ <;> exact congrArg finish (store_three_bytes_error _ rfl h)

/-- Settles O26: the AbsoluteX and AbsoluteY stores of A; the index sum decides once the fetch has succeeded. -/
theorem absoluteIndexedStores : Obligations.AbsoluteIndexedStores := by
  intro s w
  refine ⟨fun hm hf hi => exists_next_stored hm (store_absoluteX .a hf hi),
    fun hm hf hi => exists_next_stored hm (store_absoluteY .a hf hi),
    fun hf hi => congrArg finish (store_absoluteX_error .a hf hi),
    fun hf hi => congrArg finish (store_absoluteY_error .a hf hi), fun h => ?_, rfl, rfl⟩
  constructor <;> exact congrArg finish (store_three_bytes_error .a rfl h)

/-- Settles O27: the IndirectX store of A. -/
theorem indirectXStore : Obligations.IndirectXStore :=
  fun _ _ => ⟨fun hm h => exists_next_stored hm (store_indirectX .a h),
    fun h => congrArg finish (store_two_bytes_error .a rfl h), rfl⟩

/-- Settles O28: the IndirectY store of A under each value of STORE_INDY_FIXUP; the index sum decides once the fetch
has succeeded. -/
theorem indirectYStore : Obligations.IndirectYStore :=
  fun _ _ => ⟨fun hm hf hi =>
      ⟨fun hp => exists_next_stored hm (store_indirectY_always .a hf hi hp),
        fun hp => exists_next_stored hm (store_indirectY_conditional .a hf hi hp)⟩,
    fun hf hi => congrArg finish (store_indirectY_error .a hf hi),
    fun h => congrArg finish (store_two_bytes_error .a rfl h), rfl⟩

/-- Settles O29: the round trip, for each of the three registers. -/
theorem storeThenLoadReturnsValue : Obligations.StoreThenLoadReturnsValue :=
  fun _ _ _ _ hm => ⟨store_then_load_absolute (r := .a) hm, store_then_load_absolute (r := .x) hm,
    store_then_load_absolute (r := .y) hm⟩

end Sys2Proof.Machine

/-! PROOFS. The subroutine call of spec/44_jsr.md. The state JSR leaves is `calledState` (Laws/Exec); what is shown here
is that its memory is that of one word write at the stack slot, and that the slot is the one of R20. -/
namespace Sys2Proof.Machine

/-- The stack slot in the words of R20: `0x0100 | SP[7:0]`. -/
theorem stackSlot_eq_or_and (sp : Addr) : stackSlot sp = 0x0100 ||| (sp &&& 0x00FF) := by
  have hlow : zext16 (lo8 sp) = sp &&& 0x00FF := by
    apply BitVec.eq_of_toNat_eq
    rw [zext16_toNat, lo8, BitVec.extractLsb'_toNat, BitVec.toNat_and]
    exact (Nat.and_two_pow_sub_one_eq_mod sp.toNat 8).symm
  rw [stackSlot, hlow]

/-- The word written at the stack slot never runs past 0xFFFF (R42). -/
theorem stackSlot_succ_le (sp : Addr) : (stackSlot sp).toNat + 1 ≤ 0xFFFF := by
  have := (lo8 sp).isLt
  rw [stackSlot_toNat]
  omega

/-- In a canonical memory the call leaves the word PC + 2 at the stack slot, low byte first, and every other byte as it
was: its two writes are one word write (R42, R43). -/
theorem memRead_calledState {s : State} (hm : s.mem.wf = true) (target : Addr) :
    memRead (calledState target s) (stackSlot s.sp) = lo8 (s.pc + 2) ∧
    memRead (calledState target s) (stackSlot s.sp + 1) = hi8 (s.pc + 2) ∧
    ∀ addr, addr ≠ stackSlot s.sp → addr ≠ stackSlot s.sp + 1 →
      memRead (calledState target s) addr = memRead s addr := by
  have hle := stackSlot_succ_le s.sp
  obtain ⟨t, ht, hlo, hhi, hother, -⟩ := wordsAreLittleEndian s (stackSlot s.sp) (s.pc + 2) hm hle
  obtain rfl := Except.ok.inj ((writeWord_ok (.inl hle)).symm.trans ht)
  exact ⟨hlo, hhi, hother⟩

/-- Settles O31: where the three bytes can be fetched the call leaves `calledState`, whose memory is that of the word
write; where they cannot, the fetch fails. -/
theorem subroutineCall : Obligations.SubroutineCall := by
  intro s target
  simp only [← stackSlot_eq_or_and]
  refine ⟨fun hm h => ?_, fun h => congrArg finish (jumpToSubroutine_error h), rfl⟩
  obtain ⟨hlo, hhi, hother⟩ := memRead_calledState hm target
  exact ⟨_, congrArg finish (jumpToSubroutine_ok h), hlo, hhi, hother, rfl⟩

end Sys2Proof.Machine

/-! PROOFS. The Unhandled opcodes of spec/45_unhandled.md. What a running core does with one is told by `step_unhandled`;
what `execute` makes of the report is ILLEGAL_POLICY's, and is the general account of a call at its first instruction. -/
namespace Sys2Proof.Machine

section Report

variable {s : State} {op : Byte}

/-- Where it can be fetched, the step of an Unhandled byte at PC is the report (R122). -/
theorem step_unhandled (hr : Running s) (hf : CanFetch 1 s) (hop : isUnhandledByte (memRead s s.pc) = true) :
    step s = .next (raiseInvalidOpcode (memRead s s.pc) s.pc (passed 1 1 s)) := by
  rw [step_running hr, instrAt, decodeOp_of_isUnhandledByte hop]
  exact congrArg finish (reportUnhandled_ok hf)

/-- The report costs 1 cycle (R122, R146). -/
theorem cost_report (addr : Addr) :
    s.remaining - (raiseInvalidOpcode op addr (passed 1 1 s)).remaining = 1 :=
  Int.sub_sub_self s.remaining 1

/-- The Unhandled byte alone is its whole instruction (R58). -/
theorem decode_unhandled (hop : isUnhandledByte op = true) : decode [op] = .ok (.unhandled op, []) :=
  decode_eq_ok_iff.mpr ⟨hop, rfl⟩

end Report

/-- Settles O32: the fetch decides between the report and the overflow that precedes it. -/
theorem unhandledIsReported : Obligations.UnhandledIsReported :=
  fun _ _ hop => ⟨fun hf => congrArg finish (reportUnhandled_ok hf),
    fun hf => congrArg finish (reportUnhandled_error hf), decode_unhandled hop⟩

/-- Settles O33: the call's first instruction is the report, of cost 1. Under Halt it is the last one; under
ReportAndContinue the other `k` cycles are left for the rest of the call. -/
theorem illegalPolicyDecidesAfterReport : Obligations.IllegalPolicyDecidesAfterReport := by
  intro s k hr hf hop
  have hs := step_unhandled hr hf hop
  constructor
  · intro hp
    have h := hostExecute_halt (Nat.succ_pos k) hs (haltOn_eq_invalidOpcode s.pc hp hop)
    rwa [cost_report] at h
  · intro hp
    have hgo := haltOn_eq_none (op := memRead s s.pc) s.pc fun hh => nomatch hp.symm.trans hh
    have hrest : ((k + 1 : Nat) : Int) = s.remaining -
        (raiseInvalidOpcode (memRead s s.pc) s.pc (passed 1 1 s)).remaining + k := by
      rw [cost_report]
      omega
    have h := hostExecute_rest (Nat.succ_pos k) hs hgo hrest
    rwa [cost_report] at h

end Sys2Proof.Machine

/-! PROOFS. The abnormal events of spec/60_exceptions.md: a stopped core under the host port, and the AddressOverflow
that ends a call of `execute`. A call that ends Faulted is taken apart at the step that raised the overflow. -/
namespace Sys2Proof.Machine

/-! ## The run status through the host port -/

section Status

variable (s : State)

@[simp] theorem setWordReg_status (r : WordReg) (w : Addr) : (setWordReg r w s).status = s.status := by
  cases r <;> rfl
@[simp] theorem setFlag_status (f : FlagName) (w : Bool) : (setFlag f w s).status = s.status := by cases f <;> rfl
@[simp] theorem hostReset_status : (hostReset s).status = .running := rfl
@[simp] theorem setRemaining_status (k : Int) : (setRemaining k s).status = s.status := rfl
@[simp] theorem recordAddressOverflow_status (a : Addr) (b : Nat) :
    (recordAddressOverflow a b s).status = .faulted a b := rfl

end Status

/-- On a stopped core every host command but `reset()` leaves the status (R126). -/
theorem hostCommand_status_of_faulted {s : State} {a : Addr} {b : Nat} (hst : s.status = .faulted a b)
    {k : HostCommand} (hk : k ≠ .reset) : (hostCommand k s).2.status = .faulted a b := by
  cases k with
  | reset => exact absurd rfl hk
  | execute n => exact (congrArg (·.state.status) (hostExecute_faulted n hst)).trans hst
  | getWord | getByte | getFlag | memRead => exact hst
  | setWord r v => exact (setWordReg_status s r v).trans hst
  | setByte r v => exact (setReg_status s r v).trans hst
  | setFlag f v => exact (setFlag_status s f v).trans hst
  | memWrite addr v => exact (memWrite_status s addr v).trans hst

/-! ## A call that an AddressOverflow ends -/

section Overflow

variable {s : State}

/-- A call whose first instruction overflows records it from the state before that instruction (R126). -/
theorem hostExecute_overflow {a : Addr} {b k : Nat} (hk : 0 < k) (hr : Running s)
    (hf : step s = .fault (.addressOverflow a b)) :
    hostExecute k s = ⟨Config.faultUsed s.faults, .faulted,
      setRemaining s.remaining (recordAddressOverflow a b (setRemaining k s))⟩ := by
  obtain ⟨n, rfl⟩ := Nat.exists_eq_add_one.mpr hk
  rw [hostExecute_running _ hr,
    executeLoop_fault (s := setRemaining (n + 1 : Nat) s) (Int.natCast_pos.mpr hk) (step_setRemaining_fault _ hf)]
  rfl

/-- The overflow (a, b) met after steps that all finish: in the state `u` there is budget left, and the step from it
raises the overflow. -/
def OverflowReached (s u : State) (a : Addr) (b : Nat) : Prop :=
  (∃ n, core.run n s = .next u) ∧ 0 < u.remaining ∧ step u = .fault (.addressOverflow a b)

theorem OverflowReached.of_step_next {t u : State} {a : Addr} {b : Nat} (hs : step s = .next t)
    (h : OverflowReached t u a b) : OverflowReached s u a b := by
  obtain ⟨⟨n, hn⟩, hrest⟩ := h
  exact ⟨⟨n + 1, (core_run_succ n hs).trans hn⟩, hrest⟩

/-- A loop that ends Faulted has reached an overflow, and leaves the state that records it. -/
theorem executeLoop_state_of_faulted {q fuel : Nat} (hout : (executeLoop q fuel s).outcome = .faulted) :
    ∃ u a b, OverflowReached s u a b ∧ (executeLoop q fuel s).state = recordAddressOverflow a b u := by
  induction fuel generalizing s with
  | zero => exact nomatch hout
  | succ fuel ih =>
    by_cases h0 : 0 < s.remaining
    · cases hs : step s with
      | next t =>
        rcases haltOn_cases s.params (memRead s s.pc) s.pc with hh | ⟨_, _, hh⟩
        · rw [executeLoop_next h0 hs hh] at hout ⊢
          obtain ⟨u, a, b, hu, hstate⟩ := ih hout
          exact ⟨u, a, b, hu.of_step_next hs, hstate⟩
        · rw [executeLoop_halt h0 hs hh] at hout
          exact nomatch hout
      | fault f =>
        obtain ⟨a, b⟩ := f
        exact ⟨s, a, b, ⟨⟨0, rfl⟩, h0, hs⟩, by rw [executeLoop_fault h0 hs]⟩
      | refused r => exact absurd hs (wrapParameterExcludesFaults.2 s r)
    · rw [executeLoop_done h0] at hout
      exact nomatch hout

end Overflow

/-! ## The obligations -/

/-- Settles O3: a finished instruction has one of four effects, each of which keeps the canonical memory, and the report
alone adds to the log, a byte the decoder takes as Unhandled. -/
theorem stepKeepsInvariant : Obligations.StepKeepsInvariant :=
  fun _ _ hs h => hs.step_next h

/-- Settles O42: a stopped core's `execute` changes nothing, and of the other commands reset alone writes the status. -/
theorem stoppedCoreWaitsForReset : Obligations.StoppedCoreWaitsForReset :=
  fun s _ _ hst => ⟨step_faulted hst, fun k => hostExecute_faulted k hst,
    fun _ hk => hostCommand_status_of_faulted hst hk, hostReset_status s⟩

/-- Settles O43: the first clause is the call at its first instruction, the second the step at which a loop that ends
Faulted has stopped; the record of the overflow writes the status and keeps the log. -/
theorem overflowStopsExecute : Obligations.OverflowStopsExecute := by
  refine ⟨fun s a b k hr hf => ?_, fun s k hr hout => ?_⟩
  · rw [hostExecute_overflow (Nat.succ_pos k) hr hf]
    exact ⟨rfl, rfl, rfl⟩
  · rw [hostExecute_running k hr] at hout ⊢
    obtain ⟨u, a, b, ⟨⟨n, hn⟩, hleft, hf⟩, hstate⟩ := executeLoop_state_of_faulted hout
    refine ⟨n, u, a, b, hn, hleft, hf, ?_⟩
    rw [setRemaining_status, setRemaining_diag, hstate]
    exact ⟨recordAddressOverflow_status u a b, recordAddressOverflow_diag u a b⟩

/-- Settles O47: the instruction costs 1 cycle or more, so the call ends after it: halted, or with its budget met. -/
theorem executeOneRunsOneStep : Obligations.ExecuteOneRunsOneStep := by
  intro s t _ hs
  obtain ⟨_, _, he⟩ := step_next hs
  have hcost := he.cycles
  rcases haltOn_cases s.params (memRead s s.pc) s.pc with hh | ⟨_, _, hh⟩
  · rw [hostExecute_met Nat.one_pos hs hh (by omega)]
    exact ⟨rfl, rfl⟩
  · rw [hostExecute_halt Nat.one_pos hs hh]
    exact ⟨rfl, rfl⟩

end Sys2Proof.Machine

/-! PROOFS. Reset and the cycle table of spec/70_reset_and_hazards.md: the state `reset()` leaves, and the cycles of a
finished instruction. A load or store pays for its fetches, for the resolver's extra cycles and for its data access, so
its row of the table is a sum over its operand. -/
namespace Sys2Proof.Machine

/-! ## Reset (R139) -/

section Reset

variable (s : State)

theorem getFlag_hostReset (f : FlagName) : getFlag f (hostReset s) = false := by cases f <;> rfl

theorem memRead_hostReset (addr : Addr) : memRead (hostReset s) addr = 0x00 := memRead_memClear _ addr

end Reset

/-! ## The extra cycles of the resolver (R66 to R73) -/

/-- The cycles the resolver charges after the operand fetch. -/
def resolveCycles (o : Operand) (p : Purpose) (s : State) : Nat :=
  match o with
  | .zeroPage _ | .absolute _   => 0
  | .zeroPageX _ | .zeroPageY _ => 1
  | .absoluteX w => if p = .load then crossCycle w s.x s else 0
  | .absoluteY w => if p = .load then crossCycle w s.y s else 0
  | .indirectX _ => 3
  | .indirectY b => indirectYCycles b p s

/-- The fetches of an instruction change nothing the resolver's cycles depend on. -/
theorem resolveCycles_passed (o : Operand) (p : Purpose) (len k : Nat) (s : State) :
    resolveCycles o p (passed len k s) = resolveCycles o p s := by
  cases o <;> rfl

/-- A resolver that answers an address has charged `resolveCycles`. -/
theorem resolve_charges (o : Operand) (p : Purpose) (s : State) :
    (∃ ea, resolve o p s = .ok (ea, charge (resolveCycles o p s) s)) ∨ ∃ f, resolve o p s = .error f := by
  cases o with
  | zeroPage b => exact .inl ⟨_, resolve_zeroPage p s b⟩
  | zeroPageX b => exact .inl ⟨_, resolve_zeroPageX p s b⟩
  | zeroPageY b => exact .inl ⟨_, resolve_zeroPageY p s b⟩
  | absolute w => exact .inl ⟨_, resolve_absolute p s w⟩
  | absoluteX w =>
    by_cases h : CanIndex w s.x s
    · exact .inl ⟨_, resolveAbsIndexed_ok p h⟩
    · exact .inr ⟨_, resolveAbsIndexed_error p h⟩
  | absoluteY w =>
    by_cases h : CanIndex w s.y s
    · exact .inl ⟨_, resolveAbsIndexed_ok p h⟩
    · exact .inr ⟨_, resolveAbsIndexed_error p h⟩
  | indirectX b => exact .inl ⟨_, resolve_indirectX p s b⟩
  | indirectY b =>
    by_cases h : CanIndex (zpPointer b s) s.y s
    · exact .inl ⟨_, resolveIndirectY_ok p h⟩
    · exact .inr ⟨_, resolveIndirectY_error p h⟩

/-! ## The cycles of a finished instruction -/

/-- A load's cycles: opcode fetch and data read, the operand fetches, the resolver's (R84). -/
def loadCycles (o : Operand) (s : State) : Nat := 2 + operandBytes o + resolveCycles o .load s

/-- A store's cycles: opcode fetch and data write, the operand fetches, the resolver's, the fixed cycle (R104). -/
def storeCycles (o : Operand) (s : State) : Nat :=
  2 + operandBytes o + resolveCycles o .store s + fixupCycle s.params o

theorem loadCycles_indirectY (b : Byte) (s : State) :
    loadCycles (.indirectY b) s = tableCycles (.ldaIndY b) s := by
  simp only [loadCycles, operandBytes, resolveCycles, indirectYCycles_load, tableCycles]
  omega

/-- STORE_INDY_FIXUP puts the sixth cycle in the store's fixed one or in the resolver's page-cross test (R112). -/
theorem storeCycles_indirectY (b : Byte) (s : State) :
    storeCycles (.indirectY b) s = tableCycles (.staIndY b) s := by
  cases hp : s.params.storeIndyFixup with
  | always =>
    simp only [storeCycles, operandBytes, resolveCycles, indirectYCycles_store_always b hp,
      fixupCycle_indirectY_always b hp, tableCycles, hp]
  | conditional =>
    simp only [storeCycles, operandBytes, resolveCycles, indirectYCycles_store_conditional b hp,
      fixupCycle_indirectY_conditional b hp, tableCycles, hp]
    omega

section Cycles

variable {s t : State} {r : Reg} {o : Operand}

@[simp] theorem loaded_remaining (r : Reg) (v : Byte) (len k : Nat) (s : State) :
    (loaded r v len k s).remaining = s.remaining - k := setReg_remaining _ r v

theorem loadImmediate_remaining {v : Byte} (h : finish (loadImmediate r v s) = .next t) :
    t.remaining = s.remaining - (2 : Nat) := by
  rw [finish_eq_next] at h
  by_cases hf : CanFetch 2 s
  · rw [loadImmediate_ok hf] at h
    cases h
    exact loaded_remaining r v 2 2 s
  · exact nomatch (loadImmediate_error hf).symm.trans h

theorem load_remaining (h : finish (load r o s) = .next t) : t.remaining = s.remaining - loadCycles o s := by
  rw [finish_eq_next] at h
  by_cases hf : CanFetch (1 + operandBytes o) s
  · rcases resolve_charges o .load (passed (1 + operandBytes o) (1 + operandBytes o) s) with
      ⟨ea, hr⟩ | ⟨f, hr⟩
    · rw [resolveCycles_passed] at hr
      rw [load_ok_of_cycles (cycles := loadCycles o s) r hf hr (by rw [loadCycles]; omega)] at h
      cases h
      exact loaded_remaining ..
    · exact nomatch (load_resolve_error hf hr).symm.trans h
  · exact nomatch (load_fetch_error hf).symm.trans h

theorem store_remaining (h : finish (store r o s) = .next t) : t.remaining = s.remaining - storeCycles o s := by
  rw [finish_eq_next] at h
  by_cases hf : CanFetch (1 + operandBytes o) s
  · rcases resolve_charges o .store (passed (1 + operandBytes o) (1 + operandBytes o) s) with
      ⟨ea, hr⟩ | ⟨f, hr⟩
    · have hcycles : 1 + operandBytes o + (resolveCycles o .store s + (1 + fixupCycle s.params o)) =
          storeCycles o s := by
        rw [storeCycles]
        omega
      rw [resolveCycles_passed] at hr
      rw [store_ok hf hr, hcycles] at h
      cases h
      rfl
    · exact nomatch (store_resolve_error hf hr).symm.trans h
  · exact nomatch (store_fetch_error hf).symm.trans h

end Cycles

/-- A finished instruction charges its row of the table (R146). But for the IndirectY rows, the table's entry is the sum
of `loadCycles` or `storeCycles` as it computes. -/
theorem exec_remaining {i : Instr} {s t : State} (h : exec i s = .next t) :
    t.remaining = s.remaining - tableCycles i s := by
  cases i with
  | ldaImm | ldxImm | ldyImm => exact loadImmediate_remaining h
  | ldaZp | ldaZpX | ldaAbs | ldaAbsX | ldaAbsY | ldaIndX
  | ldxZp | ldxZpY | ldxAbs | ldxAbsY | ldyZp | ldyZpX | ldyAbs | ldyAbsX => exact load_remaining h
  | ldaIndY b => exact loadCycles_indirectY b s ▸ load_remaining h
  | staZp | staZpX | staAbs | staAbsX | staAbsY | staIndX
  | stxZp | stxZpY | stxAbs | styZp | styZpX | styAbs => exact store_remaining h
  | staIndY b => exact storeCycles_indirectY b s ▸ store_remaining h
  | jsr target => rw [(effect_of_exec h).eq_calledState]; rfl
  | unhandled op => rw [(effect_of_exec h).eq_reported]; rfl

/-! ## The obligations -/

/-- Settles O40: the cost is a finished instruction's row of the table, and every effect's cost is within the bounds. -/
theorem cycleTableHolds : Obligations.CycleTableHolds := by
  intro i s t h
  have htable := exec_remaining h
  have hbounds := (effect_of_exec h).cycles
  exact ⟨htable, by omega, by omega⟩

/-- Settles O1: the registers, the flags and memory by the reset's own values, the rest as it was. -/
theorem resetLeavesSpecState : Obligations.ResetLeavesSpecState :=
  fun s => ⟨rfl, rfl, rfl, rfl, rfl, getFlag_hostReset s, memRead_hostReset s, hostReset_status s,
    hostReset_diag s, rfl, hostReset_params s, rfl⟩

end Sys2Proof.Machine
